-- ==== Sys2Proof/Word.lean ====
section
/-! DEFINITION. The word types of the codec: bytes (R7), CMD16 command words (R85) and FRAME32 words (R70). -/

namespace Sys2Proof

/-- A byte, 8 bits, bit 7 the most significant (R7). -/
abbrev Byte := BitVec 8

/-- A CMD16 command word (R85). -/
abbrev CmdWord := BitVec 16

/-- A frame as one 32-bit pattern, bit 31 being bit 7 of byte 0 (R74, R89). -/
abbrev FrameWord := BitVec 32

end Sys2Proof
end

