-- ==== Sys2Proof/Syntax.lean ====
section
/-! DEFINITION. The operations of the block as syntax: one constructor of `Instr` per row of
spec/opcode_table.json, and the items in which the environment offers them. -/

namespace Sys2Proof

/-- The radio operand of SET_FLAG and SET_RADIO (R101, R102); CMD16 bit 11, 0 = radio 1 (R85). -/
inductive Radio where
  | radio1
  | radio2
  deriving DecidableEq, Repr

/-- The flag kinds of the host-to-device flags byte (R76). -/
inductive FlagKind where
  | rts
  | ptt
  | fskext
  | cw
  deriving DecidableEq, Repr

/-- The free fields of a canonical frame (R74): the valid bits `u w x`, the MSB carries `p q r`, and
bits 6:0 of the three data. -/
structure FrameFields where
  rad1Valid : Bool
  rad2Valid : Bool
  shValid : Bool
  rad1Msb : Bool
  rad2Msb : Bool
  shMsb : Bool
  rad1Low : BitVec 7
  rad2Low : BitVec 7
  shLow : BitVec 7
  deriving DecidableEq, Repr

/-- The operations (R85), the pseudo-operations (R88) and the two canonical frames (R74). The frame
index `i` has the three bits CMD16 gives it: 5..7 are encodable and refused (R87, R195). -/
inductive Instr where
  | reset
  | rxByte (v : Byte)
  | seqInit
  | setFlag (radio : Radio) (kind : FlagKind)
  | setRadio (radio : Radio) (i : BitVec 3) (v : Byte)
  | setShared (i : BitVec 3) (v : Byte) (m : Bool)
  | frameCount
  | ctrlByte (v : Byte)
  | seqFinish
  | seqSend
  | rxFrame (b0 b1 b2 b3 : Byte)
  | foldRad1 (v : Byte)
  | foldRad2 (v : Byte)
  | foldCtrl (v : Byte)
  | foldWk (v : Byte)
  | foldFsk1 (v : Byte)
  | foldFsk2 (v : Byte)
  | encodeRad1 (v : Byte)
  | frameStart (x : FrameFields)
  | frameCont (x : FrameFields)
  deriving DecidableEq, Repr

/-- One item of the operation stream (R21, R35). The spec's carrier of an operation is the command word
`cmd` (R85). The other three are the model's packaging of the table's wider rows, so that each can be
offered as one item: the two words of ENCODE_RAD1, the four of RX_FRAME (R88, R89), and a FRAME32 frame
arriving on the physical channel (R70). DESIGN CHOICE, safe (log 2). -/
inductive Item where
  | cmd (w : CmdWord)
  | pair (w0 w1 : CmdWord)
  | quad (w0 w1 w2 w3 : CmdWord)
  | frame (f : FrameWord)
  deriving DecidableEq, Repr

end Sys2Proof
end

