-- ==== Sys2Proof/Config.lean ====
section
/-! DEFINITION. What the spec leaves open, as constants with no body: the configuration `Cfg` (R6) and the
free values of the state elements RESET leaves unspecified (R38, R220). Nothing can be proved of a value
of any of them, so a claim holds for every binding (92_eei_decisions.md D8, D9). -/

namespace Sys2Proof

/-- `Cfg.flagMask(kind, radio)` (R6, R76, D8): not assumed to be one bit, distinct or non-zero (log 8). -/
opaque Config.flagMask : FlagKind → Radio → Byte

/-- `Cfg.statusRadioSelBit` (R6, R77, D9; log 8). -/
opaque Config.statusRadioSelBit : Fin 8
/-- `Cfg.statusCtsBit` (R6, R77, D9; log 8). -/
opaque Config.statusCtsBit : Fin 8
/-- `Cfg.statusSquelchBit` (R6, R77, D9; log 8). -/
opaque Config.statusSquelchBit : Fin 8
/-- `Cfg.statusFskBusyBit` (R6, R77, D9; log 8). -/
opaque Config.statusFskBusyBit : Fin 8
/-- `Cfg.statusAnyPttBit` (R6, R77, D9; log 8). -/
opaque Config.statusAnyPttBit : Fin 8
/-- `Cfg.statusFootswitchBit` (R6, R77, D9; log 8). -/
opaque Config.statusFootswitchBit : Fin 8

/-- Free value number `n` for a byte RESET leaves unspecified (R220: RXB, CF.term, SEQ.F; log 7). -/
opaque Config.freeByte : Nat → Byte

/-- Free value number `n` for the SEQ.COUNT RESET leaves unspecified, within its range 0..5 (R22; log 7). -/
opaque Config.freeCount : Nat → Fin 6

end Sys2Proof
end

