-- ==== Sys2Proof/Machine/State.lean ====
section
/-! DEFINITION. The state of the block (10_state.md R22), its output events (R34), the outcomes that stop a
step, and the state at power-up (R38). -/

namespace Sys2Proof.Machine

open Sys2Proof

/-- The logical channels (R52). -/
inductive Channel where
  | rad1
  | rad2
  | flags
  | control
  | winkey
  | fsk1
  | fsk2
  | keyboard
  deriving DecidableEq, Repr

/-- Why an operation is refused (R193 to R195). -/
inductive Reason where
  /-- A sequence operation while SEQ.init = 0 (R194). -/
  | seqUninit
  /-- SET_RADIO or SET_SHARED with frame index 5, 6 or 7 (R195). -/
  | badFrameIndex
  /-- A command word that matches no row (R86, R195). -/
  | illegalCommand
  deriving DecidableEq, Repr

/-- The output events (R34). -/
inductive Event where
  /-- `Byte(ch, v)`: a decoded byte for a channel. -/
  | byte (ch : Channel) (v : Byte)
  /-- `Status(v)`: the device's flags byte (R125). -/
  | status (v : Byte)
  /-- `Anomaly` (R191), without a payload (D16). -/
  | anomaly
  /-- `Tx(b_0 .. b_{n-1})`: one write to the physical channel (R157). -/
  | tx (bs : List Byte)
  /-- `Count(c)`: the returned frame count, 0..5 (R107). -/
  | count (c : Fin 6)
  /-- `Refused(reason)` (R193). -/
  | refused (r : Reason)
  deriving DecidableEq, Repr

/-- One frame as it goes on the wire (R25, R70): bytes 0, 1, 2, 3. -/
structure Frame where
  sync : Byte
  rad1 : Byte
  rad2 : Byte
  shared : Byte
  deriving DecidableEq, Repr

/-- The state. The first eight fields are the spec's (R22); `events` is the output stream (R34);
`refusalSeen` is the mark of R193; `input` and `fresh` are the model's own (log 1, log 7). -/
structure State where
  /-- RXB[0..3], the frame being assembled (R23). -/
  rxb : Vector Byte 4
  /-- RXN, how many of its bytes have arrived, 0..3 (R23, R26). -/
  rxn : Fin 4
  /-- POS, the decoder's cycle position, unbounded (R27). -/
  pos : Nat
  /-- CF.inCmd: InCommand rather than Idle (R28). -/
  cfInCmd : Bool
  /-- CF.term, the remembered terminator (R28). -/
  cfTerm : Byte
  /-- SEQ.init (R29). -/
  seqInit : Bool
  /-- SEQ.F[0..4] (R25). -/
  seqF : Vector Frame 5
  /-- SEQ.COUNT, 0..5 (R25). -/
  seqCount : Fin 6
  /-- The output event stream, oldest first (R34). -/
  events : List Event
  /-- Some operation of this run was refused (R193). -/
  refusalSeen : Bool
  /-- The operations still to be performed, next first (R21; log 1). -/
  input : List Item
  /-- How many free values have been drawn (log 7). -/
  fresh : Nat
  deriving DecidableEq, Repr

/-- Nothing in this block faults: it "never halts of itself" (R21), `Anomaly` "is not a fault of the
model" (R191), and there is no trap entry (R198). Raised by nobody; safe (log 15). -/
inductive Fault where
  deriving DecidableEq, Repr

/-- The spec's own refusals (R193) are next states with an event (log 5), not these. -/
inductive Refusal where
  /-- Raised by `exec` for an instruction that has no meaning yet: by none. Safe. -/
  | notModelled (mnemonic : String)
  deriving DecidableEq, Repr

/-- Power-up (R38). `rxn`, `pos`, `cfInCmd`, `seqInit` are the spec's values. DESIGN CHOICE, unsafe:
`rxb`, `cfTerm`, `seqF`, `seqCount` have no value in the spec and are zero here (log 6).
DESIGN CHOICE: no event yet, no operation offered, no free value drawn (log 1, 7, 11). -/
def State.reset : State where
  rxb := Vector.replicate 4 0
  rxn := 0
  pos := 0
  cfInCmd := false
  cfTerm := 0
  seqInit := false
  seqF := Vector.replicate 5 ⟨0, 0, 0, 0⟩
  seqCount := 0
  events := []
  refusalSeen := false
  input := []
  fresh := 0

end Sys2Proof.Machine
end

