-- ==== Sys2Proof/Machine/Flags.lean ====
section
/-! DEFINITION. The bits of the sync byte and of the data bytes (R5, R71, R72), what sets them (R30, R106),
the view of the status byte (R77), and the event codes (R192). -/

namespace Sys2Proof.Machine

open Sys2Proof

/-- SH_MSB, bit 0 of a sync byte (R71). -/
def shMsb : Byte := 0x01
/-- RAD2_MSB, bit 1 (R71). -/
def rad2Msb : Byte := 0x02
/-- RAD1_MSB, bit 2 (R71). -/
def rad1Msb : Byte := 0x04
/-- SH_VALID, bit 3 (R71). -/
def shValid : Byte := 0x08
/-- RAD2_VALID, bit 4 (R71). -/
def rad2Valid : Byte := 0x10
/-- RAD1_VALID, bit 5 (R71). -/
def rad1Valid : Byte := 0x20
/-- CONT, bit 6 (R71). -/
def cont : Byte := 0x40
/-- MARK, bit 7 of a data byte, forced to 1 (R72). -/
def mark : Byte := 0x80
/-- END_MARKER (R5, R141). -/
def endMarker : Byte := 0x80

/-- `m` if the bit is 1, else 0x00 (R102, R103). -/
def maskIf (b : Bool) (m : Byte) : Byte := if b then m else 0

/-- A data byte on the wire, `{1, v[6:0]}` (R73). -/
def wireByte (v : Byte) : Byte := mark ||| (v &&& 0x7F)

/-- The datum of a data byte and its MSB carry, `{y[k], b[6:0]}` (R73). -/
def datum (carry : Bool) (b : Byte) : Byte := maskIf carry 0x80 ||| (b &&& 0x7F)

/-- The sync bits SET_RADIO ORs in (R102). -/
def radioSyncBits (radio : Radio) (v : Byte) : Byte :=
  match radio with
  | .radio1 => rad1Valid ||| maskIf v.msb rad1Msb
  | .radio2 => rad2Valid ||| maskIf v.msb rad2Msb

/-- The sync bits SET_SHARED ORs in (R103, D5). -/
def sharedSyncBits (v : Byte) (m : Bool) : Byte := maskIf v.msb shMsb ||| maskIf m shValid

/-- The terminator of a command that starts with `v` (R141). -/
def terminator (v : Byte) : Byte := v ||| endMarker

/-- The resynchronisation condition: bits 7 and 6 of byte 0 clear (R122). -/
def resyncs (y : Byte) : Bool := y &&& 0xC0 == 0

/-- The next SEQ.COUNT after a setter that targets frame `i` (R104). -/
def raisedCount (c : Fin 6) (i : Fin 5) : Fin 6 := max c i.succ

/-- The codes the spec assigns (R192); other events have none. -/
def Event.code : Event → Option Nat
  | .anomaly => some 1
  | .refused .seqUninit => some 2
  | .refused .badFrameIndex => some 3
  | .refused .illegalCommand => some 4
  | .byte _ _ => none
  | .status _ => none
  | .tx _ => none
  | .count _ => none

/-- Bit `k` of a status byte (R77). -/
def statusBit (v : Byte) (k : Fin 8) : Bool := v.getLsbD k
/-- `status_radio_sel` (R77). -/
def statusRadioSel (v : Byte) : Bool := statusBit v Config.statusRadioSelBit
/-- `status_cts` (R77). -/
def statusCts (v : Byte) : Bool := statusBit v Config.statusCtsBit
/-- `status_squelch` (R77). -/
def statusSquelch (v : Byte) : Bool := statusBit v Config.statusSquelchBit
/-- `status_fsk_busy` (R77). -/
def statusFskBusy (v : Byte) : Bool := statusBit v Config.statusFskBusyBit
/-- `status_any_ptt` (R77). -/
def statusAnyPtt (v : Byte) : Bool := statusBit v Config.statusAnyPttBit
/-- `status_footswitch` (R77). -/
def statusFootswitch (v : Byte) : Bool := statusBit v Config.statusFootswitchBit

end Sys2Proof.Machine
end

