-- ==== Sys2Proof/Machine/Operands.lean ====
section
/-! DEFINITION. Frames and their slots: reading a frame (decode_frame, R105), writing a slot of one, the
schedules of the shared slot (R61, R78, R79), and the frame index operand. -/

namespace Sys2Proof.Machine

open Sys2Proof

/-- A frame index operand as one of the five frames; `none` for 5, 6 and 7 (R195). -/
def frameIndex (i : BitVec 3) : Option (Fin 5) :=
  if h : i.toNat < 5 then some ⟨i.toNat, h⟩ else none

/-- Byte `j` of a frame (R25). -/
def Frame.byte (f : Frame) (j : Fin 4) : Byte :=
  match j with
  | 0 => f.sync
  | 1 => f.rad1
  | 2 => f.rad2
  | 3 => f.shared

/-- A frame with byte `j` replaced (R25). -/
def Frame.setByte (f : Frame) (j : Fin 4) (v : Byte) : Frame :=
  match j with
  | 0 => { f with sync := v }
  | 1 => { f with rad1 := v }
  | 2 => { f with rad2 := v }
  | 3 => { f with shared := v }

/-- The bytes of a frame in wire order (R53). -/
def Frame.bytes (f : Frame) : List Byte := [f.sync, f.rad1, f.rad2, f.shared]

/-- The frame the assembler has collected (R23). -/
def frameOfRxb (b : Vector Byte 4) : Frame := ⟨b[0], b[1], b[2], b[3]⟩

/-- SEQ.F[i] after SEQ_INIT (R83, R100). -/
def initFrame (i : Fin 5) : Frame :=
  if i = 0 then ⟨shValid, mark, mark, mark⟩ else ⟨cont, mark, mark, mark⟩

/-- SET_RADIO on one frame (R102): the datum is overwritten, the sync bits are ORed in. -/
def Frame.putRadio (f : Frame) (radio : Radio) (v : Byte) : Frame :=
  match radio with
  | .radio1 => { f with rad1 := wireByte v, sync := f.sync ||| radioSyncBits .radio1 v }
  | .radio2 => { f with rad2 := wireByte v, sync := f.sync ||| radioSyncBits .radio2 v }

/-- SET_SHARED on one frame (R103). -/
def Frame.putShared (f : Frame) (v : Byte) (m : Bool) : Frame :=
  { f with shared := wireByte v, sync := f.sync ||| sharedSyncBits v m }

/-- SET_FLAG on frame 0 with mask `mk` (R101, D7): bits 6:0 into the flags byte, bit 7 into SH_MSB. -/
def Frame.orFlags (f : Frame) (mk : Byte) : Frame :=
  { f with shared := f.shared ||| (mk &&& 0x7F), sync := f.sync ||| maskIf mk.msb shMsb }

/-- What decode_frame returns (R105). -/
structure Decoded where
  sync : Byte
  rad1 : Option Byte
  rad2 : Option Byte
  shared : Option Byte
  deriving DecidableEq, Repr

/-- `decode_frame(f, force_shared)` (R105). -/
def decodeFrame (f : Frame) (forceShared : Bool) : Decoded where
  sync := f.sync
  rad1 := if f.sync[5] then some (datum f.sync[2] f.rad1) else none
  rad2 := if f.sync[4] then some (datum f.sync[1] f.rad2) else none
  shared :=
    if f.sync[3] || forceShared then some (datum f.sync[0] f.shared) else none

/-- The encode schedule: the channel of the shared byte of frame `i` (R61, R78). -/
def encodeChannel (i : Fin 5) : Channel :=
  match i with
  | 0 => .flags
  | 1 => .control
  | 2 => .winkey
  | 3 => .fsk1
  | 4 => .fsk2

/-- The decode schedule: the channel of the shared byte at a cycle position (R61, R79, R123). -/
def decodeChannel : Nat → Option Channel
  | 0 => some .flags
  | 1 => some .control
  | 2 => some .winkey
  | 3 => some .keyboard
  | _ => none

/-- Byte 0 of a canonical frame (R71, R74). -/
def syncOfFields (c : Bool) (x : FrameFields) : Byte :=
  maskIf c cont ||| maskIf x.rad1Valid rad1Valid ||| maskIf x.rad2Valid rad2Valid
    ||| maskIf x.shValid shValid ||| maskIf x.rad1Msb rad1Msb ||| maskIf x.rad2Msb rad2Msb
    ||| maskIf x.shMsb shMsb

/-- A canonical frame's four bytes (R74). -/
def canonicalFrame (c : Bool) (x : FrameFields) : Frame where
  sync := syncOfFields c x
  rad1 := mark ||| x.rad1Low.setWidth 8
  rad2 := mark ||| x.rad2Low.setWidth 8
  shared := mark ||| x.shLow.setWidth 8

end Sys2Proof.Machine
end

