-- ==== Sys2Proof/Machine/Ops.lean ====
section
/-! DEFINITION. The shared operations over the state: events (R34), refusals (R193), the sequence buffer
(R25, R50), the codec's functions (R100 to R103), the frame assembler and decoder step (R120, R121), the
control framer (R140) and RESET (R220). There is no trap entry to share (R198): `refuse` and `emit` are
all an operation does besides its own effect. -/

namespace Sys2Proof.Machine

open Sys2Proof

/-- Append one event to the output stream (R34). -/
def State.append (s : State) (e : Event) : State := { s with events := s.events ++ [e] }

/-- `emit(ch, v)`: `Status(v)` for FLAGS, else `Byte(ch, v)` (R34). -/
def emit (ch : Channel) (v : Byte) (s : State) : State :=
  match ch with
  | .flags => s.append (.status v)
  | _ => s.append (.byte ch v)

/-- `emit` of a datum that may be absent. -/
def emitIf (ch : Channel) (v : Option Byte) (s : State) : State :=
  match v with
  | none => s
  | some v => emit ch v s

/-- `refuse <Reason>`: one event, the mark of R193, nothing else (R193, R198; log 5). -/
def refuse (r : Reason) (s : State) : State :=
  { s with events := s.events ++ [.refused r], refusalSeen := true }

/-- Run `f` if the sequence has been initialised, else refuse (R29, R194). -/
def ifInit (f : State → State) (s : State) : State :=
  if s.seqInit then f s else refuse .seqUninit s

/-- Byte `j` of frame `i` is at sequence address `4 * i + j` (R50). -/
def seqAddr (i : Fin 5) (j : Fin 4) : Nat := 4 * i.val + j.val

/-- The frame an address in 0..19 lies in (R50). -/
def frameOfAddr (a : Nat) (h : a < 20) : Fin 5 := ⟨a / 4, by omega⟩

/-- The byte of its frame an address names (R50). -/
def byteOfAddr (a : Nat) : Fin 4 := ⟨a % 4, by omega⟩

/-- `MemRead(addr, 1)` in the 20-byte sequence space (R50, R8); no other address exists. -/
def memRead (s : State) (a : Nat) : Option Byte :=
  if h : a < 20 then some (s.seqF[frameOfAddr a h].byte (byteOfAddr a)) else none

/-- `MemWrite(addr, 1, v)` in the sequence space (R50, R8); outside it there is nothing to write. -/
def memWrite (s : State) (a : Nat) (v : Byte) : State :=
  if h : a < 20 then
    let i := frameOfAddr a h
    { s with seqF := s.seqF.set i (s.seqF[i].setByte (byteOfAddr a) v) }
  else s

/-- The sequence space as cells, in address order (R50). -/
def seqCells (s : State) : List Host.Cell :=
  s.seqF.toList.flatMap Frame.bytes |>.zipIdx.map fun c => (c.2, c.1)

/-- The one form a list of cells of the sequence space has: each address of 0..19 once, rising (log 12). -/
def Memory.wf (m : List Host.Cell) : Bool := m.map Prod.fst == List.range 20

/-- Replace frame `i` by `g` of it and raise the count to at least `i + 1` (R104). -/
def updateFrame (i : Fin 5) (g : Frame → Frame) (s : State) : State :=
  { s with seqF := s.seqF.set i (g s.seqF[i]), seqCount := raisedCount s.seqCount i }

/-- The body of SEQ_INIT (R100). -/
def initSequence (s : State) : State :=
  { s with
      seqF := #v[initFrame 0, initFrame 1, initFrame 2, initFrame 3, initFrame 4]
      seqCount := 0
      seqInit := true }

/-- The body of SET_FLAG for the mask `mk` (R101). -/
def putFlag (mk : Byte) (s : State) : State := updateFrame 0 (fun f => f.orFlags mk) s

/-- SET_FLAG (R101). -/
def setFlag (radio : Radio) (kind : FlagKind) (s : State) : State :=
  ifInit (putFlag (Config.flagMask kind radio)) s

/-- A setter on the frame of an index operand: SeqUninit, then BadFrameIndex (R197). -/
def setSlot (i : BitVec 3) (g : Frame → Frame) (s : State) : State :=
  ifInit (fun s =>
    match frameIndex i with
    | none => refuse .badFrameIndex s
    | some k => updateFrame k g s) s

/-- SET_RADIO (R102). -/
def setRadio (radio : Radio) (i : BitVec 3) (v : Byte) (s : State) : State :=
  setSlot i (fun f => f.putRadio radio v) s

/-- SET_SHARED (R103). -/
def setShared (i : BitVec 3) (v : Byte) (m : Bool) (s : State) : State :=
  setSlot i (fun f => f.putShared v m) s

/-- Step 4 of the decoder for a shared byte `d` that is processed, at the position `s.pos` (R121, R123):
a zero byte at position 1 is dropped, and at 4 and above `Anomaly` is reported (R191). -/
def dispatchShared (d : Byte) (s : State) : State :=
  match decodeChannel s.pos with
  | none => s.append .anomaly
  | some .control => if d = 0#8 then s else emit .control d s
  | some ch => emit ch d s

/-- Step 4, for a shared byte that may be absent. -/
def dispatchIf (d : Option Byte) (s : State) : State :=
  match d with
  | none => s
  | some d => dispatchShared d s

/-- Step 1 of the decoder (R122). -/
def resync (f : Frame) (s : State) : State := if resyncs f.sync then { s with pos := 0 } else s

/-- `DEC(f)`, one step of the Decoder State Machine (R121). -/
def dec (f : Frame) (s : State) : State :=
  let s := resync f s
  let d := decodeFrame f (s.pos == 1)
  let s := dispatchIf d.shared (emitIf .rad2 d.rad2 (emitIf .rad1 d.rad1 s))
  { s with pos := s.pos + 1 }

/-- RX_BYTE (R120). -/
def receive (v : Byte) (s : State) : State :=
  let s := { s with rxb := s.rxb.set s.rxn v }
  if s.rxn.val < 3 then { s with rxn := s.rxn + 1 }
  else { dec (frameOfRxb s.rxb) s with rxn := 0 }

/-- Four RX_BYTE, byte 0 first (R53, R88). -/
def receiveFrame (f : Frame) (s : State) : State :=
  receive f.shared (receive f.rad2 (receive f.rad1 (receive f.sync s)))

/-- CTRL_BYTE in Idle (R141). -/
def ctrlIdle (v : Byte) (s : State) : State :=
  let s := setShared 1 v false s
  if v = 0#8 then s else { s with cfTerm := terminator v, cfInCmd := true }

/-- CTRL_BYTE in InCommand (R142). -/
def ctrlInCommand (v : Byte) (s : State) : State :=
  if v = s.cfTerm then { setShared 1 s.cfTerm false s with cfInCmd := false }
  else setShared 1 v true s

/-- CTRL_BYTE (R140). -/
def ctrlByte (v : Byte) (s : State) : State :=
  ifInit (fun s => if s.cfInCmd then ctrlInCommand v s else ctrlIdle v s) s

/-- The bytes of the leading frames, ascending (R53, R157). -/
def burst (s : State) : List Byte := (s.seqF.toList.take s.seqCount).flatMap Frame.bytes

/-- Four free bytes from free value `n`. -/
def freeFrame (n : Nat) : Frame :=
  ⟨Config.freeByte n, Config.freeByte (n + 1), Config.freeByte (n + 2), Config.freeByte (n + 3)⟩

/-- RESET (R220). What it leaves unspecified becomes a free value, 26 of them a time (log 7). -/
def resetBlock (s : State) : State :=
  let n := s.fresh
  { s with
      rxn := 0
      pos := 0
      cfInCmd := false
      seqInit := false
      rxb := #v[Config.freeByte n, Config.freeByte (n + 1), Config.freeByte (n + 2),
        Config.freeByte (n + 3)]
      cfTerm := Config.freeByte (n + 4)
      seqF := #v[freeFrame (n + 5), freeFrame (n + 9), freeFrame (n + 13), freeFrame (n + 17),
        freeFrame (n + 21)]
      seqCount := Config.freeCount (n + 25)
      fresh := n + 26 }

end Sys2Proof.Machine
end

