-- ==== Sys2Proof/Machine/ControlFramer.lean ====
section
/-! DEFINITION. The Control Framer's operation (42_control_framer.md) and its fold (R152). -/

namespace Sys2Proof.Machine

open Sys2Proof

/-- CTRL_BYTE v (R140). -/
def execCtrlByte (v : Byte) (s : State) : Host.Outcome State Fault Refusal := .next (ctrlByte v s)

/-- FOLD_CTRL v (R152): CTRL_BYTE v. -/
def execFoldCtrl (v : Byte) (s : State) : Host.Outcome State Fault Refusal := .next (ctrlByte v s)

end Sys2Proof.Machine
end

