-- ==== Sys2Proof/Machine/Decoder.lean ====
section
/-! DEFINITION. The receive path (41_decoder.md): RX_BYTE, RX_FRAME, and a canonical frame arriving on the
physical channel. -/

namespace Sys2Proof.Machine

open Sys2Proof

/-- RX_BYTE v (R120): legal in every state. -/
def execRxByte (v : Byte) (s : State) : Host.Outcome State Fault Refusal := .next (receive v s)

/-- RX_FRAME b0, b1, b2, b3 (R88): four RX_BYTE. -/
def execRxFrame (b0 b1 b2 b3 : Byte) (s : State) : Host.Outcome State Fault Refusal :=
  .next (receiveFrame ⟨b0, b1, b2, b3⟩ s)

/-- FRAME.START (R74): a canonical frame with CONT = 0 is received, byte 0 first (R53), through the
assembler, which cuts frames blindly (R56); with an empty assembler that is `DEC` of it (R121).
DEDUCED, unsafe (log 4). -/
def execFrameStart (x : FrameFields) (s : State) : Host.Outcome State Fault Refusal :=
  .next (receiveFrame (canonicalFrame false x) s)

/-- FRAME.CONT (R74): likewise with CONT = 1. DEDUCED, unsafe (log 4). -/
def execFrameCont (x : FrameFields) (s : State) : Host.Outcome State Fault Refusal :=
  .next (receiveFrame (canonicalFrame true x) s)

end Sys2Proof.Machine
end

