-- ==== Sys2Proof/Machine/SequenceBuilder.lean ====
section
/-! DEFINITION. The Sequence Builder (43_sequence_builder.md): the folds, SEQ_FINISH, SEQ_SEND; and
ENCODE_RAD1 (30_encoding.md R88). -/

namespace Sys2Proof.Machine

open Sys2Proof

/-- FOLD_RAD1 v (R151): SET_RADIO 1, 0, v. -/
def execFoldRad1 (v : Byte) (s : State) : Host.Outcome State Fault Refusal :=
  .next (setRadio .radio1 0 v s)

/-- FOLD_RAD2 v (R151): SET_RADIO 2, 0, v. -/
def execFoldRad2 (v : Byte) (s : State) : Host.Outcome State Fault Refusal :=
  .next (setRadio .radio2 0 v s)

/-- FOLD_WK v (R153): SET_SHARED 2, v, 1. -/
def execFoldWk (v : Byte) (s : State) : Host.Outcome State Fault Refusal :=
  .next (setShared 2 v true s)

/-- FOLD_FSK1 v (R154): SET_SHARED 3, v, 1. -/
def execFoldFsk1 (v : Byte) (s : State) : Host.Outcome State Fault Refusal :=
  .next (setShared 3 v true s)

/-- FOLD_FSK2 v (R154): SET_SHARED 4, v, 1. -/
def execFoldFsk2 (v : Byte) (s : State) : Host.Outcome State Fault Refusal :=
  .next (setShared 4 v true s)

/-- ENCODE_RAD1 v (R88): SEQ_INIT; SET_RADIO 1, 0, v. Its result is frame 0 of the buffer; no event
(log 16). -/
def execEncodeRad1 (v : Byte) (s : State) : Host.Outcome State Fault Refusal :=
  .next (setRadio .radio1 0 v (initSequence s))

/-- SEQ_FINISH (R155): RTS for both radios if the sequence is not empty (D18). -/
def execSeqFinish (s : State) : Host.Outcome State Fault Refusal :=
  .next (ifInit (fun s =>
    if s.seqCount = 0 then s else setFlag .radio2 .rts (setFlag .radio1 .rts s)) s)

/-- SEQ_SEND (R157): one burst of the leading frames, or nothing; writes no state (D17). -/
def execSeqSend (s : State) : Host.Outcome State Fault Refusal :=
  .next (ifInit (fun s => if s.seqCount = 0 then s else s.append (.tx (burst s))) s)

end Sys2Proof.Machine
end

