-- ==== Sys2Proof/Machine/WireCodec.lean ====
section
/-! DEFINITION. The Wire Codec's operations (40_wire_codec.md) and RESET (70_reset_and_hazards.md). -/

namespace Sys2Proof.Machine

open Sys2Proof

/-- RESET (R220): legal in every state. -/
def execReset (s : State) : Host.Outcome State Fault Refusal := .next (resetBlock s)

/-- SEQ_INIT (R100): legal in every state. -/
def execSeqInit (s : State) : Host.Outcome State Fault Refusal := .next (initSequence s)

/-- SET_FLAG radio, kind (R101). -/
def execSetFlag (radio : Radio) (kind : FlagKind) (s : State) : Host.Outcome State Fault Refusal :=
  .next (setFlag radio kind s)

/-- SET_RADIO radio, i, v (R102). -/
def execSetRadio (radio : Radio) (i : BitVec 3) (v : Byte) (s : State) :
    Host.Outcome State Fault Refusal :=
  .next (setRadio radio i v s)

/-- SET_SHARED i, v, m (R103). -/
def execSetShared (i : BitVec 3) (v : Byte) (m : Bool) (s : State) :
    Host.Outcome State Fault Refusal :=
  .next (setShared i v m s)

/-- FRAME_COUNT (R107): appends `Count(SEQ.COUNT)`, writes no state. -/
def execFrameCount (s : State) : Host.Outcome State Fault Refusal :=
  .next (ifInit (fun s => s.append (.count s.seqCount)) s)

end Sys2Proof.Machine
end

