-- ==== Sys2Proof/Machine/Dispatch.lean ====
section
/-! DEFINITION. One arm per instruction: the meaning it calls. -/

namespace Sys2Proof.Machine

open Sys2Proof

def exec (i : Instr) (s : State) : Host.Outcome State Fault Refusal :=
  match i with
  | .reset => Sys2Proof.Machine.execReset s
  | .rxByte v => Sys2Proof.Machine.execRxByte v s
  | .seqInit => Sys2Proof.Machine.execSeqInit s
  | .setFlag radio kind => Sys2Proof.Machine.execSetFlag radio kind s
  | .setRadio radio k v => Sys2Proof.Machine.execSetRadio radio k v s
  | .setShared k v m => Sys2Proof.Machine.execSetShared k v m s
  | .frameCount => Sys2Proof.Machine.execFrameCount s
  | .ctrlByte v => Sys2Proof.Machine.execCtrlByte v s
  | .seqFinish => Sys2Proof.Machine.execSeqFinish s
  | .seqSend => Sys2Proof.Machine.execSeqSend s
  | .rxFrame b0 b1 b2 b3 => Sys2Proof.Machine.execRxFrame b0 b1 b2 b3 s
  | .foldRad1 v => Sys2Proof.Machine.execFoldRad1 v s
  | .foldRad2 v => Sys2Proof.Machine.execFoldRad2 v s
  | .foldCtrl v => Sys2Proof.Machine.execFoldCtrl v s
  | .foldWk v => Sys2Proof.Machine.execFoldWk v s
  | .foldFsk1 v => Sys2Proof.Machine.execFoldFsk1 v s
  | .foldFsk2 v => Sys2Proof.Machine.execFoldFsk2 v s
  | .encodeRad1 v => Sys2Proof.Machine.execEncodeRad1 v s
  | .frameStart x => Sys2Proof.Machine.execFrameStart x s
  | .frameCont x => Sys2Proof.Machine.execFrameCont x s

end Sys2Proof.Machine
end

