-- ==== Sys2Proof/WellFormed.lean ====
section
/-! DEFINITION. Which instructions have legal operands. Every other operand domain of R87 is exact in the
type of its field, so the one check left is the frame index. -/

namespace Sys2Proof

/-- The legal frame indices are 0..4 (R50, R102, R103); 5..7 can be encoded and are refused (R195). -/
def legalFrameIndex (i : BitVec 3) : Bool := i.toNat ≤ 4

/-- The operands of the instruction are legal (R87). -/
def Instr.wellFormed : Instr → Bool
  | .setRadio _ i _ => legalFrameIndex i
  | .setShared i _ _ => legalFrameIndex i
  | .reset => true
  | .rxByte _ => true
  | .seqInit => true
  | .setFlag _ _ => true
  | .frameCount => true
  | .ctrlByte _ => true
  | .seqFinish => true
  | .seqSend => true
  | .rxFrame _ _ _ _ => true
  | .foldRad1 _ => true
  | .foldRad2 _ => true
  | .foldCtrl _ => true
  | .foldWk _ => true
  | .foldFsk1 _ => true
  | .foldFsk2 _ => true
  | .encodeRad1 _ => true
  | .frameStart _ => true
  | .frameCont _ => true

end Sys2Proof
end

