-- ==== Sys2Proof/Decode.lean ====
section
/-! DEFINITION. The decoder, from the ten CMD16 rows (R85, R89), the word groups of the multi-word
pseudo-operations (R88) and the canonical frame patterns (R74); then the encoder from the same tables. -/

namespace Sys2Proof

/-- Bits 15:12, the operation code (R85). -/
def opField (w : CmdWord) : BitVec 4 := w.extractLsb' 12 4
/-- Bit 11, field `a` (R85). -/
def aField (w : CmdWord) : Bool := w[11]
/-- Bits 10:8, field `i` (R85). -/
def iField (w : CmdWord) : BitVec 3 := w.extractLsb' 8 3
/-- Bits 7:0, field `v` (R85). -/
def vField (w : CmdWord) : Byte := w.extractLsb' 0 8

/-- Field `a` as a radio: 0 = radio 1, 1 = radio 2 (R85). -/
def radioOfBit (a : Bool) : Radio := if a then .radio2 else .radio1
/-- A radio as field `a` (R85). -/
def bitOfRadio : Radio → Bool
  | .radio1 => false
  | .radio2 => true

/-- `i[1:0]` as a flag kind: 0 = RTS, 1 = PTT, 2 = FSKEXT, 3 = CW (R85). -/
def kindOfField (i : BitVec 3) : FlagKind :=
  match (i.extractLsb' 0 2).toNat with
  | 0 => .rts
  | 1 => .ptt
  | 2 => .fskext
  | _ => .cw
/-- A flag kind as field `i`, with `i[2] = 0` (R85). -/
def fieldOfKind : FlagKind → BitVec 3
  | .rts => 0
  | .ptt => 1
  | .fskext => 2
  | .cw => 3

/-- The instruction, if its must-be-zero fields are zero (R85, R86). -/
def whenZero (mbz : Bool) (i : Instr) : Option Instr := if mbz then some i else none

/-- One command word (R85). `none`: the word matches no row, IllegalCommand (R86). -/
def decodeCmd (w : CmdWord) : Option Instr :=
  let a := aField w
  let i := iField w
  let v := vField w
  match (opField w).toNat with
  | 0 => whenZero (!a && i == 0 && v == 0) .reset
  | 1 => whenZero (!a && i == 0) (.rxByte v)
  | 2 => whenZero (!a && i == 0 && v == 0) .seqInit
  | 3 => whenZero (!i[2] && v == 0) (.setFlag (radioOfBit a) (kindOfField i))
  | 4 => some (.setRadio (radioOfBit a) i v)
  | 5 => some (.setShared i v a)
  | 6 => whenZero (!a && i == 0 && v == 0) .frameCount
  | 7 => whenZero (!a && i == 0) (.ctrlByte v)
  | 8 => whenZero (!a && i == 0 && v == 0) .seqFinish
  | 9 => whenZero (!a && i == 0 && v == 0) .seqSend
  | _ => none

/-- Two words offered together: SEQ_INIT and SET_RADIO 1, 0, v are ENCODE_RAD1 v (R88). -/
def decodePair (w0 w1 : CmdWord) : Option Instr :=
  match decodeCmd w0, decodeCmd w1 with
  | some .seqInit, some (.setRadio .radio1 i v) => if i = 0 then some (.encodeRad1 v) else none
  | _, _ => none

/-- Four words offered together: four RX_BYTE are RX_FRAME (R88). -/
def decodeQuad (w0 w1 w2 w3 : CmdWord) : Option Instr :=
  match decodeCmd w0, decodeCmd w1, decodeCmd w2, decodeCmd w3 with
  | some (.rxByte b0), some (.rxByte b1), some (.rxByte b2), some (.rxByte b3) =>
    some (.rxFrame b0 b1 b2 b3)
  | _, _, _, _ => none

/-- Byte `j` of a FRAME32 word; byte 0 is bits 31:24 (R74, R89). -/
def frameByte (f : FrameWord) (j : Nat) : Byte := f.extractLsb' (24 - 8 * j) 8

/-- The free fields of a frame by their bit numbers (R74). -/
def frameFields (f : FrameWord) : FrameFields where
  rad1Valid := f[29]
  rad2Valid := f[28]
  shValid := f[27]
  rad1Msb := f[26]
  rad2Msb := f[25]
  shMsb := f[24]
  rad1Low := f.extractLsb' 16 7
  rad2Low := f.extractLsb' 8 7
  shLow := f.extractLsb' 0 7

/-- A canonical frame has bit 7 clear in byte 0 and set in bytes 1 to 3 (R74). -/
def isCanonicalFrame (f : FrameWord) : Bool :=
  !f[31] && f[23] && f[15] && f[7]

/-- A frame on the physical channel: FRAME.START (CONT = 0) or FRAME.CONT (CONT = 1) if canonical (R74).
Any other 32-bit value is accepted too (R74, R82): it is just its four bytes. DEDUCED, safe (log 14). -/
def decodeFrame32 (f : FrameWord) : Instr :=
  if isCanonicalFrame f then
    if f[30] then .frameCont (frameFields f) else .frameStart (frameFields f)
  else .rxFrame (frameByte f 0) (frameByte f 1) (frameByte f 2) (frameByte f 3)

/-- The decoder: what an item says, and what is left of it. A group of words that is no
pseudo-operation is its words one after another (log 2). `none`: no row matches (R86). -/
def decodeItem : Item → Option Instr × List Item
  | .cmd w => (decodeCmd w, [])
  | .pair w0 w1 =>
    match decodePair w0 w1 with
    | some i => (some i, [])
    | none => (decodeCmd w0, [.cmd w1])
  | .quad w0 w1 w2 w3 =>
    match decodeQuad w0 w1 w2 w3 with
    | some i => (some i, [])
    | none => (decodeCmd w0, [.cmd w1, .cmd w2, .cmd w3])
  | .frame f => (some (decodeFrame32 f), [])

/-- The core operation a one-word pseudo-operation is a shorthand for (R88, R151 to R154); every other
instruction is its own. The command words of a FOLD decode to this operation (R89). -/
def Instr.canonical : Instr → Instr
  | .foldRad1 v => .setRadio .radio1 0 v
  | .foldRad2 v => .setRadio .radio2 0 v
  | .foldCtrl v => .ctrlByte v
  | .foldWk v => .setShared 2 v true
  | .foldFsk1 v => .setShared 3 v true
  | .foldFsk2 v => .setShared 4 v true
  | .reset => .reset
  | .rxByte v => .rxByte v
  | .seqInit => .seqInit
  | .setFlag radio kind => .setFlag radio kind
  | .setRadio radio i v => .setRadio radio i v
  | .setShared i v m => .setShared i v m
  | .frameCount => .frameCount
  | .ctrlByte v => .ctrlByte v
  | .seqFinish => .seqFinish
  | .seqSend => .seqSend
  | .rxFrame b0 b1 b2 b3 => .rxFrame b0 b1 b2 b3
  | .encodeRad1 v => .encodeRad1 v
  | .frameStart x => .frameStart x
  | .frameCont x => .frameCont x

/-- A command word from its four fields (R85). -/
def cmdWord (op : BitVec 4) (a : Bool) (i : BitVec 3) (v : Byte) : CmdWord :=
  op ++ BitVec.ofBool a ++ i ++ v

/-- A canonical frame from its fields, byte 0 on the left (R74). -/
def frameWord (cont : Bool) (x : FrameFields) : FrameWord :=
  0#1 ++ BitVec.ofBool cont ++ BitVec.ofBool x.rad1Valid ++ BitVec.ofBool x.rad2Valid
    ++ BitVec.ofBool x.shValid ++ BitVec.ofBool x.rad1Msb ++ BitVec.ofBool x.rad2Msb
    ++ BitVec.ofBool x.shMsb
    ++ 1#1 ++ x.rad1Low ++ 1#1 ++ x.rad2Low ++ 1#1 ++ x.shLow

/-- The words of an instruction (R74, R85, R88). -/
def encode : Instr → Item
  | .reset => .cmd (cmdWord 0x0 false 0 0)
  | .rxByte v => .cmd (cmdWord 0x1 false 0 v)
  | .seqInit => .cmd (cmdWord 0x2 false 0 0)
  | .setFlag radio kind => .cmd (cmdWord 0x3 (bitOfRadio radio) (fieldOfKind kind) 0)
  | .setRadio radio i v => .cmd (cmdWord 0x4 (bitOfRadio radio) i v)
  | .setShared i v m => .cmd (cmdWord 0x5 m i v)
  | .frameCount => .cmd (cmdWord 0x6 false 0 0)
  | .ctrlByte v => .cmd (cmdWord 0x7 false 0 v)
  | .seqFinish => .cmd (cmdWord 0x8 false 0 0)
  | .seqSend => .cmd (cmdWord 0x9 false 0 0)
  | .rxFrame b0 b1 b2 b3 =>
    .quad (cmdWord 0x1 false 0 b0) (cmdWord 0x1 false 0 b1) (cmdWord 0x1 false 0 b2)
      (cmdWord 0x1 false 0 b3)
  | .foldRad1 v => .cmd (cmdWord 0x4 false 0 v)
  | .foldRad2 v => .cmd (cmdWord 0x4 true 0 v)
  | .foldCtrl v => .cmd (cmdWord 0x7 false 0 v)
  | .foldWk v => .cmd (cmdWord 0x5 true 2 v)
  | .foldFsk1 v => .cmd (cmdWord 0x5 true 3 v)
  | .foldFsk2 v => .cmd (cmdWord 0x5 true 4 v)
  | .encodeRad1 v => .pair (cmdWord 0x2 false 0 0) (cmdWord 0x4 false 0 v)
  | .frameStart x => .frame (frameWord false x)
  | .frameCont x => .frame (frameWord true x)

/-- Word `k` of the 16-bit words in `w`, word 0 in the least significant bits. -/
def tableHalf (w k : Nat) : CmdWord := BitVec.ofNat 16 (w >>> (16 * k))

/-- An instruction of 32 bits is the word pair of ENCODE_RAD1, in whichever half its first word stands
(the two patterns exclude each other and both exclude a canonical frame), or else a frame (log 13). -/
def itemOfBits32 (w : Nat) : Item :=
  if (decodePair (tableHalf w 0) (tableHalf w 1)).isSome then
    .pair (tableHalf w 0) (tableHalf w 1)
  else if (decodePair (tableHalf w 1) (tableHalf w 0)).isSome then
    .pair (tableHalf w 1) (tableHalf w 0)
  else .frame (BitVec.ofNat 32 w)

/-- The item an instruction of `nbits` bits is offered as, by the width of its table row: CMD16, then
ENCODE_RAD1 and FRAME32, then RX_FRAME with its first word in the least significant bits (log 13). -/
def itemOfBits (nbits w : Nat) : Item :=
  let b := w % 2 ^ nbits
  if nbits ≤ 16 then .cmd (BitVec.ofNat 16 b)
  else if nbits ≤ 32 then itemOfBits32 b
  else .quad (tableHalf b 0) (tableHalf b 1) (tableHalf b 2) (tableHalf b 3)

/-- What the decoder reads from a table row's bits; `none` where it refuses. -/
def decodeTableWord (nbits w : Nat) : Option Instr := (decodeItem (itemOfBits nbits w)).1

end Sys2Proof
end

