-- ==== Sys2Proof/Machine/Fetch.lean ====
section
/-! DEFINITION. Taking the next operation off the operation stream (R21, R35), and placing one at its head. -/

namespace Sys2Proof.Machine

open Sys2Proof

/-- The state after the head item has been taken and `left` of it put back. -/
def State.afterFetch (s : State) (left rest : List Item) : State := { s with input := left ++ rest }

/-- The state with the item of an instruction's bits at the head of the stream. -/
def State.offer (s : State) (nbits w : Nat) : State :=
  { s with input := itemOfBits nbits w :: s.input }

/-- An item that says no operation: refused, nothing changes (R86, R195). -/
def illegalCommand (s : State) : State := refuse .illegalCommand s

end Sys2Proof.Machine
end

