-- ==== Sys2Proof/Machine/Step.lean ====
section
/-! DEFINITION. One step: the next operation of the stream, to completion (R20). -/

namespace Sys2Proof.Machine

open Sys2Proof

/-- One step. With no operation offered nothing changes: "Nothing else changes the state" (R20; DEDUCED,
safe, log 10). A word that matches no row is refused before anything else is examined (R86, R197). -/
def step (s : State) : Host.Outcome State Fault Refusal :=
  match s.input with
  | [] => .next s
  | item :: rest =>
    match decodeItem item with
    | (some i, left) => exec i (s.afterFetch left rest)
    | (none, left) => .next (illegalCommand (s.afterFetch left rest))

/-- `s` with an instruction's words offered next; a program is loaded from outside (log 1). -/
def State.withFetchWord (s : State) (nbits w : Nat) : State := s.offer nbits w

end Sys2Proof.Machine
end

