-- ==== Sys2Proof/Safety.lean ====
section
/-! DEFINITION. The terms claims are stated in: runs of operations (R21), which operations belong to which
part of the block, what a part leaves unchanged, refusal-free runs (R193), the invariant of the sequence
buffer (R37), the scheduler's operation streams (R170), and transcriptions of the spec's tables that the
machine itself does not use. -/

namespace Sys2Proof.Machine

open Sys2Proof

/-- A run of instructions, each from the state the one before left (R21, R63). -/
def execAll : List Instr → State → Host.Outcome State Fault Refusal
  | [], s => .next s
  | i :: is, s =>
    match exec i s with
    | .next t => execAll is t
    | .fault r => .fault r
    | .refused r => .refused r

/-- The instruction receives bytes of the physical channel (R52). -/
def isReceive : Instr → Bool
  | .rxByte _ | .rxFrame _ _ _ _ | .frameStart _ | .frameCont _ => true
  | .reset | .seqInit | .setFlag _ _ | .setRadio _ _ _ | .setShared _ _ _ | .frameCount
  | .ctrlByte _ | .seqFinish | .seqSend | .foldRad1 _ | .foldRad2 _ | .foldCtrl _ | .foldWk _
  | .foldFsk1 _ | .foldFsk2 _ | .encodeRad1 _ => false

/-- The instruction is refused while SEQ.init = 0: the seven operations R194 lists and the folds that are
some of them (R88). -/
def needsSeq : Instr → Bool
  | .setFlag _ _ | .setRadio _ _ _ | .setShared _ _ _ | .frameCount | .ctrlByte _ | .seqFinish
  | .seqSend | .foldRad1 _ | .foldRad2 _ | .foldCtrl _ | .foldWk _ | .foldFsk1 _ | .foldFsk2 _ =>
    true
  | .reset | .rxByte _ | .seqInit | .rxFrame _ _ _ _ | .encodeRad1 _ | .frameStart _
  | .frameCont _ => false

/-- The instruction is a byte of the Control endpoint (R140, R152). -/
def isControlByte : Instr → Bool
  | .ctrlByte _ | .foldCtrl _ => true
  | .reset | .rxByte _ | .seqInit | .setFlag _ _ | .setRadio _ _ _ | .setShared _ _ _ | .frameCount
  | .seqFinish | .seqSend | .rxFrame _ _ _ _ | .foldRad1 _ | .foldRad2 _ | .foldWk _ | .foldFsk1 _
  | .foldFsk2 _ | .encodeRad1 _ | .frameStart _ | .frameCont _ => false

/-- The instruction starts the sequence afresh (R100) or resets the block (R220). -/
def startsSequence : Instr → Bool
  | .reset | .seqInit | .encodeRad1 _ => true
  | .rxByte _ | .setFlag _ _ | .setRadio _ _ _ | .setShared _ _ _ | .frameCount | .ctrlByte _
  | .seqFinish | .seqSend | .rxFrame _ _ _ _ | .foldRad1 _ | .foldRad2 _ | .foldCtrl _ | .foldWk _
  | .foldFsk1 _ | .foldFsk2 _ | .frameStart _ | .frameCont _ => false

/-- The frame a setter targets (R104); `none` for an instruction that is no setter. -/
def setterTarget : Instr → Option Nat
  | .setFlag _ _ => some 0
  | .setRadio _ i _ => some i.toNat
  | .setShared i _ _ => some i.toNat
  | .foldRad1 _ => some 0
  | .foldRad2 _ => some 0
  | .foldWk _ => some 2
  | .foldFsk1 _ => some 3
  | .foldFsk2 _ => some 4
  | .reset | .rxByte _ | .seqInit | .frameCount | .ctrlByte _ | .seqFinish | .seqSend
  | .rxFrame _ _ _ _ | .foldCtrl _ | .encodeRad1 _ | .frameStart _ | .frameCont _ => none

/-- The channel an instruction folds a byte for (R151 to R154). -/
def foldChannel : Instr → Option Channel
  | .foldRad1 _ => some .rad1
  | .foldRad2 _ => some .rad2
  | .foldCtrl _ => some .control
  | .foldWk _ => some .winkey
  | .foldFsk1 _ => some .fsk1
  | .foldFsk2 _ => some .fsk2
  | .reset | .rxByte _ | .seqInit | .setFlag _ _ | .setRadio _ _ _ | .setShared _ _ _ | .frameCount
  | .ctrlByte _ | .seqFinish | .seqSend | .rxFrame _ _ _ _ | .encodeRad1 _ | .frameStart _
  | .frameCont _ => none

/-- The receive side is unchanged: RXB, RXN, POS. -/
def SameReceive (s t : State) : Prop := t.rxb = s.rxb ∧ t.rxn = s.rxn ∧ t.pos = s.pos

/-- The control framer is unchanged: CF.inCmd, CF.term. -/
def SameFramer (s t : State) : Prop := t.cfInCmd = s.cfInCmd ∧ t.cfTerm = s.cfTerm

/-- The sequence is unchanged: SEQ.init, SEQ.F, SEQ.COUNT. -/
def SameSequence (s t : State) : Prop :=
  t.seqInit = s.seqInit ∧ t.seqF = s.seqF ∧ t.seqCount = s.seqCount

/-- The model's own fields are unchanged: no refusal, no input taken, no free value drawn. -/
def SameRun (s t : State) : Prop :=
  t.refusalSeen = s.refusalSeen ∧ t.input = s.input ∧ t.fresh = s.fresh

/-- The state after a refusal: one event and the mark, nothing else (R193). -/
def afterRefusal (r : Reason) (s : State) : State :=
  { s with events := s.events ++ [.refused r], refusalSeen := true }

/-- A run has been free of refusals; no claim passes over a refusal without saying so (R193). -/
def State.clean (s : State) : Prop :=
  s.refusalSeen = false ∧ ∀ r, Event.refused r ∉ s.events

/-- The invariant of the sequence buffer, items 1 to 4 and 6 of R37 in order; item 5's range of COUNT is
its type. -/
structure SeqInv (s : State) : Prop where
  reserved_clear : s.seqInit = true → ∀ i : Fin 5, s.seqF[i].sync[7] = false
  cont_marks : s.seqInit = true → ∀ i : Fin 5, s.seqF[i].sync[6] = decide (i ≠ 0)
  marks_set : s.seqInit = true → ∀ i : Fin 5,
    s.seqF[i].rad1[7] = true ∧ s.seqF[i].rad2[7] = true
      ∧ s.seqF[i].shared[7] = true
  flags_valid : s.seqInit = true → s.seqF[0].sync[3] = true
  untouched : s.seqInit = true → ∀ i : Fin 5, s.seqCount.val ≤ i.val →
    s.seqF[i] = ⟨if i = 0 then 0x08 else 0x40, 0x80, 0x80, 0x80⟩

/-- A datum: `{carry, b[6:0]}` (R73). -/
def joinDatum (carry : Bool) (b : Byte) : Byte := BitVec.ofBool carry ++ b.extractLsb' 0 7

/-- The events of one frame decoded at position `p`, the position after the resynchronisation test
(R121 steps 2 to 4, R123). -/
def frameEvents (y b1 b2 b3 : Byte) (p : Nat) : List Event :=
  (if y[5] then [.byte .rad1 (joinDatum y[2] b1)] else [])
  ++ (if y[4] then [.byte .rad2 (joinDatum y[1] b2)] else [])
  ++ (if y[3] || p = 1 then
        let d := joinDatum y[0] b3
        if p = 0 then [.status d]
        else if p = 1 then (if d = 0#8 then [] else [.byte .control d])
        else if p = 2 then [.byte .winkey d]
        else if p = 3 then [.byte .keyboard d]
        else [.anomaly]
      else [])

/-- The events of a canonical frame with these fields, decoded at position `p`. -/
def fieldEvents (x : FrameFields) (p : Nat) : List Event :=
  (if x.rad1Valid then [.byte .rad1 (BitVec.ofBool x.rad1Msb ++ x.rad1Low)] else [])
  ++ (if x.rad2Valid then [.byte .rad2 (BitVec.ofBool x.rad2Msb ++ x.rad2Low)] else [])
  ++ (if x.shValid || p = 1 then
        let d : Byte := BitVec.ofBool x.shMsb ++ x.shLow
        if p = 0 then [.status d]
        else if p = 1 then (if d = 0#8 then [] else [.byte .control d])
        else if p = 2 then [.byte .winkey d]
        else if p = 3 then [.byte .keyboard d]
        else [.anomaly]
      else [])

/-- The position a frame is dispatched at (R121 step 1, R122): 0 if bits 7 and 6 of its byte 0 are clear. -/
def dispatchPosition (y : Byte) (pos : Nat) : Nat :=
  if y[7] = false ∧ y[6] = false then 0 else pos

/-- Byte 0 of the frame an instruction completes; `none` where it completes none. The frame an empty assembler
starts begins with the first byte received, and one it has started begins with RXB[0] (R120, R53, R57). -/
def completedSync (i : Instr) (s : State) : Option Byte :=
  let first (b0 : Byte) : Option Byte := some (if s.rxn = 0 then b0 else s.rxb[0])
  match i with
  | .rxByte _ => if s.rxn = 3 then some s.rxb[0] else none
  | .rxFrame b0 _ _ _ => first b0
  | .frameStart x => first (syncOfFields false x)
  | .frameCont x => first (syncOfFields true x)
  | .reset | .seqInit | .setFlag _ _ | .setRadio _ _ _ | .setShared _ _ _ | .frameCount
  | .ctrlByte _ | .seqFinish | .seqSend | .foldRad1 _ | .foldRad2 _ | .foldCtrl _ | .foldWk _
  | .foldFsk1 _ | .foldFsk2 _ | .encodeRad1 _ => none

/-- Two cycle positions the decoder cannot tell apart (R27, R123). -/
def PositionsAlike (p q : Nat) : Prop := p = q ∨ (4 ≤ p ∧ 4 ≤ q)

/-- A row of the CMD16 table (R85): match, mask, and the operation with its operands read from the bit
numbers of the field table. -/
structure CmdRow where
  pat : CmdWord
  mask : CmdWord
  operation : CmdWord → Instr

/-- The kind code of SET_FLAG in bits 9:8 (R85). -/
def kindCode (w : CmdWord) : FlagKind :=
  if w[9] then (if w[8] then .cw else .fskext)
  else (if w[8] then .ptt else .rts)

/-- The CMD16 table (R85). -/
def cmdTable : List CmdRow :=
  let radio (w : CmdWord) : Radio := if w[11] then .radio2 else .radio1
  let i (w : CmdWord) : BitVec 3 := (w >>> 8).setWidth 3
  let v (w : CmdWord) : Byte := w.setWidth 8
  [⟨0x0000, 0xFFFF, fun _ => .reset⟩,
   ⟨0x1000, 0xFF00, fun w => .rxByte (v w)⟩,
   ⟨0x2000, 0xFFFF, fun _ => .seqInit⟩,
   ⟨0x3000, 0xF4FF, fun w => .setFlag (radio w) (kindCode w)⟩,
   ⟨0x4000, 0xF000, fun w => .setRadio (radio w) (i w) (v w)⟩,
   ⟨0x5000, 0xF000, fun w => .setShared (i w) (v w) w[11]⟩,
   ⟨0x6000, 0xFFFF, fun _ => .frameCount⟩,
   ⟨0x7000, 0xFF00, fun w => .ctrlByte (v w)⟩,
   ⟨0x8000, 0xFFFF, fun _ => .seqFinish⟩,
   ⟨0x9000, 0xFFFF, fun _ => .seqSend⟩]

/-- What one scheduler cycle delivers: at most one received byte and one byte per endpoint (R170 to R172). -/
structure CycleInput where
  rx : Option Byte
  ctrl : Option Byte
  rad1 : Option Byte
  rad2 : Option Byte
  fsk1 : Option Byte
  fsk2 : Option Byte
  wk : Option Byte
  deriving DecidableEq, Repr

/-- The folds of one cycle, in the source's fixed order (R170, R173). -/
def cycleFolds (c : CycleInput) : List Instr :=
  (c.ctrl.map Instr.foldCtrl).toList ++ (c.rad1.map Instr.foldRad1).toList
    ++ (c.rad2.map Instr.foldRad2).toList ++ (c.fsk1.map Instr.foldFsk1).toList
    ++ (c.fsk2.map Instr.foldFsk2).toList ++ (c.wk.map Instr.foldWk).toList

/-- One scheduler cycle as operations on the block (R170). -/
def cycleOps (c : CycleInput) : List Instr :=
  (c.rx.map Instr.rxByte).toList ++ [.seqInit] ++ cycleFolds c ++ [.seqFinish, .seqSend]

end Sys2Proof.Machine
end

