-- ==== Sys2Proof/Certificates/Slice0/Obligations.lean ====
section
/-! DEFINITION. The statements for the provers. Each docstring names the rule of spec/ it formalises. -/

open Sys2Proof Sys2Proof.Machine

/-! ### Words and decoding -/

/-- A few command words and frames written out from R85 and R74 decode to what they stand for. That a pair of words
offered together is ENCODE_RAD1 is the model's choice (log 2, DESIGN CHOICE): R89 has a decoder of the ten CMD16
rows alone. -/
def Obligations.WrittenWordsDecode : Prop :=
  decodeItem (.cmd 0b0001000001000001#16) = (some (.rxByte 0x41), [])
  ∧ decodeItem (.cmd 0b0011100100000000#16) = (some (.setFlag .radio2 .ptt), [])
  ∧ decodeItem (.cmd 0b0100110010101010#16) = (some (.setRadio .radio2 4 0xAA), [])
  ∧ decodeItem (.cmd 0b0101101001000010#16) = (some (.setShared 2 0x42 true), [])
  ∧ decodeItem (.cmd 0b0111000000000101#16) = (some (.ctrlByte 0x05), [])
  ∧ decodeItem (.cmd 0b1001000000000000#16) = (some .seqSend, [])
  ∧ decodeItem (.pair 0b0010000000000000#16 0b0100000001000001#16) = (some (.encodeRad1 0x41), [])
  ∧ decodeItem (.frame 0b00101000110010001000000010000101#32)
      = (some (.frameStart ⟨true, false, true, false, false, false, 0x48, 0x00, 0x05⟩), [])

/-- R85: a word that matches a row of the CMD16 table is that row's operation with the operands of its
fields, a word that matches none is no operation, and the rows do not overlap. The word is the spec's own
(decision D2). -/
def Obligations.CommandWordsFollowTable : Prop :=
  (∀ w : CmdWord, ∀ r ∈ cmdTable, w &&& r.mask = r.pat → decodeCmd w = some (r.operation w))
  ∧ (∀ w : CmdWord, (∀ r ∈ cmdTable, w &&& r.mask ≠ r.pat) → decodeCmd w = none)
  ∧ cmdTable.Pairwise (fun r q => ∀ w : CmdWord, w &&& r.mask = r.pat → w &&& q.mask ≠ q.pat)

/-- Decode and encode agree for every instruction (R85, R74); the words of a fold are those of the core operation it
is a shorthand for (R88, R89; log 3). That ENCODE_RAD1 is offered as a pair of words and RX_FRAME as a group of four
is the model's choice (log 2, DESIGN CHOICE), no rule of the spec. -/
def Obligations.DecodeEncodeAgree : Prop :=
  ∀ i : Instr, decodeItem (encode i) = (some i.canonical, [])

/-- Every FRAME32 value is accepted: it decodes to an instruction, with nothing left over, and receiving it is
receiving its four bytes, whichever row it matches (R74, R89). The packaging as one item is the model's choice
(log 2), as is the instruction of a frame that is not canonical (log 14); that FRAME.START and FRAME.CONT are
received through the assembler, in every state of it, is the model's reading (log 4). -/
def Obligations.FramesAreTheirFourBytes : Prop :=
  ∀ f : FrameWord, ∃ i : Instr, decodeItem (.frame f) = (some i, [])
    ∧ ∀ s : State,
      execAll [.rxByte (f.extractLsb' 24 8), .rxByte (f.extractLsb' 16 8), .rxByte (f.extractLsb' 8 8),
        .rxByte (f.extractLsb' 0 8)] s = exec i s

/-! ### The step -/

/-- A step runs the decoded instruction on the state with the item taken off the stream (R20, R21; that the
stream stands in State is the model's choice, log 1). -/
def Obligations.StepRunsDecodedInstruction : Prop :=
  ∀ (s : State) (item : Item) (rest left : List Item) (i : Instr),
    s.input = item :: rest → decodeItem item = (some i, left) →
      step s = exec i { s with input := left ++ rest }

/-- With no operation offered nothing changes (R20; that a step then answers the same state is the model's
reading, log 10). -/
def Obligations.IdleStepChangesNothing : Prop :=
  ∀ s : State, s.input = [] → step s = .next s

/-- R86: a word that matches no row is refused with IllegalCommand and changes nothing; a SET_RADIO or
SET_SHARED word with frame index 5..7 matches its row and is refused with BadFrameIndex (SEQ.init = 1;
R197 gives the other case). The spec's decision D14; that the word comes from State.input is log 1. -/
def Obligations.IllegalWordsAreRefused : Prop :=
  (∀ (s : State) (w : CmdWord) (rest : List Item), s.input = .cmd w :: rest →
    (∀ r ∈ cmdTable, w &&& r.mask ≠ r.pat) →
      step s = .next (afterRefusal .illegalCommand { s with input := rest }))
  ∧ (∀ (s : State) (w : CmdWord) (rest : List Item), s.input = .cmd w :: rest → s.seqInit = true →
    (w &&& 0xF000 = 0x4000 ∨ w &&& 0xF000 = 0x5000) → 5 ≤ ((w >>> 8) &&& 7).toNat →
      step s = .next (afterRefusal .badFrameIndex { s with input := rest }))

/-- R21, R129: the block never halts of itself; from every state a step answers a next state. -/
def Obligations.EveryStepAnswersNext : Prop := ∀ s : State, ∃ t, step s = .next t

/-- R34: the event stream only grows at its end, and what is before is never removed or reordered. R126: no
operation produces a byte for FSK1 or FSK2 (nor one for FLAGS, whose event is Status). -/
def Obligations.EventsOnlyAppendedNeverFsk : Prop :=
  ∀ (s t : State), step s = .next t →
    ∃ new, t.events = s.events ++ new
      ∧ ∀ v, Event.byte .fsk1 v ∉ new ∧ Event.byte .fsk2 v ∉ new ∧ Event.byte .flags v ∉ new

/-! ### Reset -/

/-- R220: RESET is legal in every state; RXN, POS, CF.inCmd and SEQ.init become 0; a partly assembled frame
and a command in progress are abandoned; power-up has the same values. What RESET leaves unspecified (RXB,
CF.term, SEQ.F, SEQ.COUNT) is free here. The zeros are the spec's decisions D11, D12 and D13. -/
def Obligations.ResetPutsBlockAtBridgeStart : Prop :=
  (∀ s : State, ∃ t, exec .reset s = .next t ∧ t.rxn = 0 ∧ t.pos = 0 ∧ t.cfInCmd = false
    ∧ t.seqInit = false ∧ t.events = s.events ∧ t.refusalSeen = s.refusalSeen ∧ t.input = s.input)
  ∧ decodeCmd 0x0000 = some .reset
  ∧ State.reset.rxn = 0 ∧ State.reset.pos = 0 ∧ State.reset.cfInCmd = false
  ∧ State.reset.seqInit = false

/-! ### The receive path -/

/-- R120, R121, R129: the first three bytes of a frame are stored and nothing else happens; the fourth runs
one decoder step: the position is 0 if bits 7 and 6 of byte 0 are clear, the events of the frame at that
position are appended in the order RAD1, RAD2, shared, the position moves on by one, RXN returns to 0. -/
def Obligations.RxByteAssemblesAndDecodes : Prop :=
  (∀ (v : Byte) (s : State), s.rxn.val < 3 →
    ∃ t, exec (.rxByte v) s = .next t ∧ t.rxn.val = s.rxn.val + 1 ∧ t.pos = s.pos
      ∧ (∀ j : Fin 4, t.rxb[j] = if j = s.rxn then v else s.rxb[j])
      ∧ t.events = s.events ∧ SameFramer s t ∧ SameSequence s t ∧ SameRun s t)
  ∧ (∀ (v : Byte) (s : State), s.rxn = 3 →
    ∃ t, exec (.rxByte v) s = .next t ∧ t.rxn = 0 ∧ t.pos = dispatchPosition s.rxb[0] s.pos + 1
      ∧ (∀ j : Fin 4, t.rxb[j] = if j = 3 then v else s.rxb[j])
      ∧ t.events = s.events
          ++ frameEvents s.rxb[0] s.rxb[1] s.rxb[2] v (dispatchPosition s.rxb[0] s.pos)
      ∧ SameFramer s t ∧ SameSequence s t ∧ SameRun s t)
  ∧ (∀ v : Byte, decodeCmd (0x1000#16 ||| v.setWidth 16) = some (.rxByte v))

/-- R105: decode_frame extracts each field, presence by the valid bits, the shared byte also if forced. -/
def Obligations.DecodeFrameExtractsFields : Prop :=
  ∀ (f : Frame) (force : Bool),
    (decodeFrame f force).sync = f.sync
    ∧ (decodeFrame f force).rad1
        = (if f.sync[5] then some (joinDatum f.sync[2] f.rad1) else none)
    ∧ (decodeFrame f force).rad2
        = (if f.sync[4] then some (joinDatum f.sync[1] f.rad2) else none)
    ∧ (decodeFrame f force).shared
        = (if f.sync[3] = true ∨ force = true then
            some (joinDatum f.sync[0] f.shared) else none)

/-- RX_FRAME (R88): four RX_BYTE from every state; into an empty assembler, one decoder step (R121). -/
def Obligations.RxFrameRunsDecoder : Prop :=
  (∀ (b0 b1 b2 b3 : Byte) (s : State),
    execAll [.rxByte b0, .rxByte b1, .rxByte b2, .rxByte b3] s = exec (.rxFrame b0 b1 b2 b3) s)
  ∧ (∀ (b0 b1 b2 b3 : Byte) (s : State), s.rxn = 0 →
    ∃ t, exec (.rxFrame b0 b1 b2 b3) s = .next t ∧ t.rxn = 0
      ∧ t.pos = dispatchPosition b0 s.pos + 1
      ∧ t.events = s.events ++ frameEvents b0 b1 b2 b3 (dispatchPosition b0 s.pos)
      ∧ SameFramer s t ∧ SameSequence s t ∧ SameRun s t)

/-- FRAME.START into an empty assembler (R74, R121, R122): dispatched at position 0 wherever the decoder
was, its data delivered whole, the position left at 1. That the frame passes through the assembler is the
model's reading (log 4). -/
def Obligations.StartFrameDispatchedAtZero : Prop :=
  ∀ (x : FrameFields) (s : State), s.rxn = 0 →
    ∃ t, exec (.frameStart x) s = .next t ∧ t.rxn = 0 ∧ t.pos = 1
      ∧ t.events = s.events ++ fieldEvents x 0
      ∧ SameFramer s t ∧ SameSequence s t ∧ SameRun s t

/-- FRAME.CONT into an empty assembler (R74, R121, R124): dispatched at the position the decoder holds, which
then moves on by one (log 4). -/
def Obligations.ContFrameDispatchedAtPosition : Prop :=
  ∀ (x : FrameFields) (s : State), s.rxn = 0 →
    ∃ t, exec (.frameCont x) s = .next t ∧ t.rxn = 0 ∧ t.pos = s.pos + 1
      ∧ t.events = s.events ++ fieldEvents x s.pos
      ∧ SameFramer s t ∧ SameSequence s t ∧ SameRun s t

/-- R128: at position 1 a zero shared byte gives no event and any other gives `Byte(CONTROL, d)`, valid bit
set or not; the frame's only other events are those of its radio bytes, which come before it. -/
def Obligations.ControlSlotIgnoresValidBit : Prop :=
  ∀ (y b1 b2 b3 : Byte) (s : State), s.rxn = 0 → s.pos = 1 →
    ¬ (y[7] = false ∧ y[6] = false) →
    ∃ t, exec (.rxFrame y b1 b2 b3) s = .next t
      ∧ t.events = s.events
          ++ (if y[5] then [.byte .rad1 (joinDatum y[2] b1)] else [])
          ++ (if y[4] then [.byte .rad2 (joinDatum y[1] b2)] else [])
          ++ (if joinDatum y[0] b3 = 0 then []
              else [.byte .control (joinDatum y[0] b3)])

/-- R191, R123: the fourth byte of a frame reports Anomaly exactly when the shared byte is valid and the frame
is dispatched at a position of 4 or above, once; no instruction but a received byte or frame reports it. -/
def Obligations.AnomalyExactlyOnValidOverrun : Prop :=
  (∀ (v : Byte) (s : State), s.rxn = 3 →
    ∃ t new, exec (.rxByte v) s = .next t ∧ t.events = s.events ++ new
      ∧ new.count .anomaly
          = if s.rxb[0][3] = true ∧ 4 ≤ dispatchPosition s.rxb[0] s.pos then 1 else 0)
  ∧ (∀ (i : Instr) (s : State), isReceive i = false →
    ∃ t new, exec i s = .next t ∧ t.events = s.events ++ new ∧ Event.anomaly ∉ new)

/-- R122, R27, R124: the cycle position falls only by RESET or by a completed frame whose byte 0 has bits 7 and 6
clear, which leaves it at 1. A completed frame moves it on by one from where it was dispatched; a byte that
completes none leaves it, and so does every instruction that receives nothing and is not RESET. That a FRAME.START
or FRAME.CONT frame passes through the assembler, so that one received into a started assembler is dispatched by
RXB[0], is the model's reading (log 4), no rule of the spec. -/
def Obligations.PositionFallsOnlyByResync : Prop :=
  ∀ (i : Instr) (s t : State), exec i s = .next t →
    (t.pos < s.pos → i = .reset
      ∨ ∃ y, completedSync i s = some y ∧ y[7] = false ∧ y[6] = false ∧ t.pos = 1)
    ∧ (∀ y, completedSync i s = some y → t.pos = dispatchPosition y s.pos + 1)
    ∧ (completedSync i s = none → i ≠ .reset → t.pos = s.pos)

/-- R124: a device that sends cycles of four frames, the first with CONT = 0 and the others with CONT = 1,
into an empty assembler, never makes the decoder report an Anomaly, from whatever position it starts. The spec
derives it from R121 and R122; that these rows are received through the assembler is the model's reading
(log 4). -/
def Obligations.FourFrameCyclesNeverAnomalous : Prop :=
  ∀ (cycles : List (FrameFields × FrameFields × FrameFields × FrameFields)) (s : State), s.rxn = 0 →
    ∃ t new, execAll (cycles.flatMap fun c =>
        [.frameStart c.1, .frameCont c.2.1, .frameCont c.2.2.1, .frameCont c.2.2.2]) s = .next t
      ∧ t.events = s.events ++ new ∧ Event.anomaly ∉ new ∧ t.rxn = 0
      ∧ (cycles ≠ [] → t.pos = 4)

/-- R27, R123: an implementation that saturates POS at any value of 4 or more produces the same output. Two
states that differ only in positions the decoder cannot tell apart stay so under every instruction, with
the same events. The spec derives it from R123 and R124. For FRAME.START and FRAME.CONT it rests on log 4. -/
def Obligations.SaturatedPositionIndistinguishable : Prop :=
  ∀ (i : Instr) (s t : State) (q : Nat), PositionsAlike s.pos q → exec i s = .next t →
    ∃ (t' : State) (q' : Nat), exec i { s with pos := q } = .next t' ∧ PositionsAlike t.pos q'
      ∧ t'.pos = q' ∧ t'.events = t.events ∧ t'.rxb = t.rxb ∧ t'.rxn = t.rxn
      ∧ SameFramer t t' ∧ SameSequence t t' ∧ SameRun t t'

/-! ### The Wire Codec -/

/-- R100: SEQ_INIT in every state makes frame 0 08 80 80 80 and frames 1 to 4 40 80 80 80, COUNT 0, SEQ.init 1,
and touches nothing else. The fillers are the spec's decision D4. -/
def Obligations.SeqInitFillsFrames : Prop :=
  (∀ s : State, ∃ t, exec .seqInit s = .next t
    ∧ memRead t 0 = some 0x08
    ∧ (∀ i, 1 ≤ i → i ≤ 4 → memRead t (4 * i) = some 0x40)
    ∧ (∀ i j, i ≤ 4 → 1 ≤ j → j ≤ 3 → memRead t (4 * i + j) = some 0x80)
    ∧ t.seqCount = 0 ∧ t.seqInit = true ∧ t.events = s.events
    ∧ SameReceive s t ∧ SameFramer s t ∧ SameRun s t)
  ∧ decodeCmd 0x2000 = some .seqInit

/-- R101: SET_FLAG ORs bits 6:0 of the mask into the flags byte at address 3 and bit 7 into SH_MSB of the sync
byte at address 0, raises COUNT to at least 1, and changes nothing else; refused before SEQ_INIT. The carry
into SH_MSB is the spec's decision D7, the refusal D13. -/
def Obligations.SetFlagOrsMaskIntoFlagsByte : Prop :=
  (∀ (radio : Radio) (kind : FlagKind) (s : State), s.seqInit = true →
    ∃ t, exec (.setFlag radio kind) s = .next t
      ∧ memRead t 3 = (memRead s 3).map (fun b => b ||| (Config.flagMask kind radio &&& 0x7F))
      ∧ memRead t 0 = (memRead s 0).map
          (fun y => y ||| (if (Config.flagMask kind radio)[7] then 0x01 else 0x00))
      ∧ (∀ a, a ≠ 0 → a ≠ 3 → memRead t a = memRead s a)
      ∧ t.seqCount.val = max s.seqCount.val 1 ∧ t.seqInit = true ∧ t.events = s.events
      ∧ SameReceive s t ∧ SameFramer s t ∧ SameRun s t)
  ∧ (∀ (radio : Radio) (kind : FlagKind) (s : State), s.seqInit = false →
    exec (.setFlag radio kind) s = .next (afterRefusal .seqUninit s))
  ∧ (∀ (a : Bool) (k : BitVec 2),
    decodeCmd (0x3000#16 ||| (BitVec.ofBool a).setWidth 16 <<< 11 ||| k.setWidth 16 <<< 8)
      = some (.setFlag (if a then .radio2 else .radio1)
          (if k = 0 then .rts else if k = 1 then .ptt else if k = 2 then .fskext else .cw)))

/-- R102: SET_RADIO writes `{1, v[6:0]}` to the radio's data byte of frame i, ORs its valid bit and, if v[7] is
set, its MSB-carry bit into the sync byte, raises COUNT to at least i + 1, and changes nothing else;
SeqUninit before SEQ_INIT, BadFrameIndex for 5..7. -/
def Obligations.SetRadioWritesSlot : Prop :=
  (∀ (radio : Radio) (i : BitVec 3) (v : Byte) (s : State), s.seqInit = true → i.toNat ≤ 4 →
    let j := match radio with | .radio1 => 1 | .radio2 => 2
    let valid : Byte := match radio with | .radio1 => 0x20 | .radio2 => 0x10
    let msb : Byte := match radio with | .radio1 => 0x04 | .radio2 => 0x02
    ∃ t, exec (.setRadio radio i v) s = .next t
      ∧ memRead t (4 * i.toNat + j) = some (0x80 ||| (v &&& 0x7F))
      ∧ memRead t (4 * i.toNat) = (memRead s (4 * i.toNat)).map
          (fun y => y ||| valid ||| (if v[7] then msb else 0x00))
      ∧ (∀ a, a ≠ 4 * i.toNat → a ≠ 4 * i.toNat + j → memRead t a = memRead s a)
      ∧ t.seqCount.val = max s.seqCount.val (i.toNat + 1) ∧ t.seqInit = true ∧ t.events = s.events
      ∧ SameReceive s t ∧ SameFramer s t ∧ SameRun s t)
  ∧ (∀ (radio : Radio) (i : BitVec 3) (v : Byte) (s : State), s.seqInit = false →
    exec (.setRadio radio i v) s = .next (afterRefusal .seqUninit s))
  ∧ (∀ (radio : Radio) (i : BitVec 3) (v : Byte) (s : State), s.seqInit = true → 5 ≤ i.toNat →
    exec (.setRadio radio i v) s = .next (afterRefusal .badFrameIndex s))
  ∧ (∀ (a : Bool) (i : BitVec 3) (v : Byte),
    decodeCmd (0x4000#16 ||| (BitVec.ofBool a).setWidth 16 <<< 11 ||| i.setWidth 16 <<< 8
      ||| v.setWidth 16) = some (.setRadio (if a then .radio2 else .radio1) i v))

/-- R103: SET_SHARED writes `{1, v[6:0]}` to the shared byte of frame i, ORs SH_MSB if v[7] is set, whatever m is,
and SH_VALID if m is 1, raises COUNT to at least i + 1, and changes nothing else; SeqUninit before SEQ_INIT,
BadFrameIndex for 5..7. That SH_MSB follows v[7] is the spec's decision D5. -/
def Obligations.SetSharedWritesSlot : Prop :=
  (∀ (i : BitVec 3) (v : Byte) (m : Bool) (s : State), s.seqInit = true → i.toNat ≤ 4 →
    ∃ t, exec (.setShared i v m) s = .next t
      ∧ memRead t (4 * i.toNat + 3) = some (0x80 ||| (v &&& 0x7F))
      ∧ memRead t (4 * i.toNat) = (memRead s (4 * i.toNat)).map
          (fun y => y ||| (if v[7] then 0x01 else 0x00) ||| (if m then 0x08 else 0x00))
      ∧ (∀ a, a ≠ 4 * i.toNat → a ≠ 4 * i.toNat + 3 → memRead t a = memRead s a)
      ∧ t.seqCount.val = max s.seqCount.val (i.toNat + 1) ∧ t.seqInit = true ∧ t.events = s.events
      ∧ SameReceive s t ∧ SameFramer s t ∧ SameRun s t)
  ∧ (∀ (i : BitVec 3) (v : Byte) (m : Bool) (s : State), s.seqInit = false →
    exec (.setShared i v m) s = .next (afterRefusal .seqUninit s))
  ∧ (∀ (i : BitVec 3) (v : Byte) (m : Bool) (s : State), s.seqInit = true → 5 ≤ i.toNat →
    exec (.setShared i v m) s = .next (afterRefusal .badFrameIndex s))
  ∧ (∀ (m : Bool) (i : BitVec 3) (v : Byte),
    decodeCmd (0x5000#16 ||| (BitVec.ofBool m).setWidth 16 <<< 11 ||| i.setWidth 16 <<< 8
      ||| v.setWidth 16) = some (.setShared i v m))

/-- R107: FRAME_COUNT appends `Count(SEQ.COUNT)` and writes no state; refused before SEQ_INIT. -/
def Obligations.FrameCountReturnsCount : Prop :=
  (∀ s : State, s.seqInit = true →
    ∃ t, exec .frameCount s = .next t ∧ t.events = s.events ++ [.count s.seqCount]
      ∧ (∀ a, memRead t a = memRead s a)
      ∧ SameReceive s t ∧ SameFramer s t ∧ SameSequence s t ∧ SameRun s t)
  ∧ (∀ s : State, s.seqInit = false → exec .frameCount s = .next (afterRefusal .seqUninit s))
  ∧ decodeCmd 0x6000 = some .frameCount

/-- R106: no setter clears a sync bit: every sync bit set before an instruction other than RESET, SEQ_INIT and
ENCODE_RAD1 is set after it, and bit 7 of a data byte stays 1. R37 item 5: COUNT does not fall. Both
are the spec's own (decision D6; derived). -/
def Obligations.SyncBitsAndCountNeverFall : Prop :=
  ∀ (i : Instr) (s t : State), exec i s = .next t → startsSequence i = false →
    s.seqCount.val ≤ t.seqCount.val
    ∧ ∀ (k : Fin 5), (∀ b, s.seqF[k].sync.getLsbD b = true → t.seqF[k].sync.getLsbD b = true)
      ∧ (s.seqF[k].rad1[7] = true → t.seqF[k].rad1[7] = true)
      ∧ (s.seqF[k].rad2[7] = true → t.seqF[k].rad2[7] = true)
      ∧ (s.seqF[k].shared[7] = true → t.seqF[k].shared[7] = true)

/-- R108: for every byte v and every i in 0..4, after SEQ_INIT and one setter of frame i, decode_frame of that
frame has the datum v. The spec derives it from R100, R102, R103 and R105. -/
def Obligations.SlotRoundTrip : Prop :=
  ∀ (s : State) (i : Fin 5) (v : Byte) (k : BitVec 3), k.toNat = i.val →
    (∃ t, execAll [.seqInit, .setRadio .radio1 k v] s = .next t
      ∧ (decodeFrame t.seqF[i] false).rad1 = some v)
    ∧ (∃ t, execAll [.seqInit, .setRadio .radio2 k v] s = .next t
      ∧ (decodeFrame t.seqF[i] false).rad2 = some v)
    ∧ (∃ t, execAll [.seqInit, .setShared k v true] s = .next t
      ∧ (decodeFrame t.seqF[i] false).shared = some v)

/-- ENCODE_RAD1 (R88, R100, R102, R108) in every state: frame 0 holds the RAD1 datum v and no other radio datum, the
other bytes are the fillers of SEQ_INIT, COUNT is 1. The expansion is the spec's decision D23 and the fillers its
decision D4; that the result stays in frame 0 with no event is the model's reading (log 16). -/
def Obligations.EncodeRad1GivesFrameZero : Prop :=
  ∀ (v : Byte) (s : State), ∃ t, exec (.encodeRad1 v) s = .next t
    ∧ t.seqF[0] = ⟨0x28 ||| (if v[7] then 0x04 else 0x00), 0x80 ||| (v &&& 0x7F), 0x80, 0x80⟩
    ∧ (decodeFrame t.seqF[0] false).rad1 = some v ∧ (decodeFrame t.seqF[0] false).rad2 = none
    ∧ (∀ a, 4 ≤ a → a < 20 → memRead t a = some (if a % 4 = 0 then 0x40 else 0x80))
    ∧ t.seqCount.val = 1 ∧ t.seqInit = true ∧ t.events = s.events
    ∧ SameReceive s t ∧ SameFramer s t ∧ SameRun s t

/-- R104: after SEQ_INIT and any setters with legal operands, COUNT is one plus the highest frame index they
targeted, and 0 if there were none. -/
def Obligations.CountIsOnePlusHighestSlot : Prop :=
  ∀ (setters : List Instr) (s : State),
    (∀ i ∈ setters, i.wellFormed = true ∧ (setterTarget i).isSome = true) →
    ∃ t, execAll (.seqInit :: setters) s = .next t
      ∧ t.seqCount.val = ((setters.filterMap setterTarget).map (· + 1)).foldr max 0

/-- R60: SEQ_INIT, SEQ_FINISH and the setters applied twice leave the same state as once (the spec derives it). -/
def Obligations.BuildersAreIdempotent : Prop :=
  ∀ (i : Instr) (s : State), s.seqInit = true → i.wellFormed = true →
    (i = .seqInit ∨ i = .seqFinish ∨ (setterTarget i).isSome = true) →
    ∃ t, exec i s = .next t ∧ exec i t = .next t

/-! ### The Control Framer -/

/-- R140, R141, R142, R145: CTRL_BYTE (and FOLD_CTRL, R152) takes exactly the four edges of the framer's graph;
the byte goes to frame 1 as by SET_SHARED 1, v, m; nothing else changes; before SEQ_INIT it is refused and the
framer does not move. The graph is derived in the spec; the refusal is its decision D13, that the closing byte
leaves CF.term alone its decision D15. -/
def Obligations.ControlByteFollowsFramerGraph : Prop :=
  (∀ (v : Byte) (s : State), s.seqInit = true →
    ∃ t u, exec (.ctrlByte v) s = .next t ∧ exec (.foldCtrl v) s = .next t
      ∧ exec (.setShared 1 v (s.cfInCmd && v != s.cfTerm)) s = .next u ∧ SameSequence u t
      ∧ (s.cfInCmd = false → v = 0 → t.cfInCmd = false ∧ t.cfTerm = s.cfTerm)
      ∧ (s.cfInCmd = false → v ≠ 0 → t.cfInCmd = true ∧ t.cfTerm = v ||| 0x80)
      ∧ (s.cfInCmd = true → v = s.cfTerm → t.cfInCmd = false ∧ t.cfTerm = s.cfTerm)
      ∧ (s.cfInCmd = true → v ≠ s.cfTerm → t.cfInCmd = true ∧ t.cfTerm = s.cfTerm)
      ∧ t.events = s.events ∧ SameReceive s t ∧ SameRun s t)
  ∧ (∀ (v : Byte) (s : State), s.seqInit = false →
    exec (.ctrlByte v) s = .next (afterRefusal .seqUninit s)
    ∧ exec (.foldCtrl v) s = .next (afterRefusal .seqUninit s))
  ∧ (∀ v : Byte, decodeCmd (0x7000#16 ||| v.setWidth 16) = some (.ctrlByte v))

/-- CTRL_BYTE and FOLD_CTRL: the bytes stored. Frame 1's shared byte becomes `{1, v[6:0]}`, its sync byte gains
SH_MSB if v[7] is set and SH_VALID for a payload byte only, COUNT is at least 2 (R140). -/
def Obligations.ControlByteWritesFrameOne : Prop :=
  ∀ (i : Instr) (v : Byte) (s : State), (i = .ctrlByte v ∨ i = .foldCtrl v) → s.seqInit = true →
    ∃ t, exec i s = .next t
      ∧ memRead t 7 = some (0x80 ||| (v &&& 0x7F))
      ∧ memRead t 4 = (memRead s 4).map (fun y => y ||| (if v[7] then 0x01 else 0x00)
          ||| (if s.cfInCmd = true ∧ v ≠ s.cfTerm then 0x08 else 0x00))
      ∧ (∀ a, a ≠ 4 → a ≠ 7 → memRead t a = memRead s a)
      ∧ t.seqCount.val = max s.seqCount.val 2 ∧ t.seqInit = true

/-- R144: CF is changed by CTRL_BYTE and RESET only. -/
def Obligations.FramerMovesOnlyOnControlBytes : Prop :=
  ∀ (i : Instr) (s t : State), exec i s = .next t → isControlByte i = false → i ≠ .reset →
    SameFramer s t

/-- R80, R143: from Idle, a command (a non-zero first byte, payload bytes that are not its terminator, then its
terminator), one byte to a sequence as the scheduler does, keeps the framer InCommand to its last payload byte and
returns it to Idle with the terminator, however long it is. -/
def Obligations.CommandOpensAndCloses : Prop :=
  ∀ (c : Byte) (payload : List Byte) (s : State), s.cfInCmd = false → c ≠ 0 →
    (∀ b ∈ payload, b ≠ c ||| 0x80) →
    ∃ t u, execAll ((c :: payload).flatMap fun b => [.seqInit, .ctrlByte b]) s = .next t
      ∧ t.cfInCmd = true ∧ t.cfTerm = c ||| 0x80
      ∧ execAll [.seqInit, .ctrlByte (c ||| 0x80)] t = .next u ∧ u.cfInCmd = false
      ∧ u.events = s.events ∧ u.refusalSeen = s.refusalSeen

/-! ### The Sequence Builder -/

/-- FOLD_RAD1 and FOLD_RAD2 (R151) are SET_RADIO 1, 0, v and SET_RADIO 2, 0, v in every state, FOLD_CTRL (R152) is
CTRL_BYTE, FOLD_WK (R153), FOLD_FSK1 and FOLD_FSK2 (R154) are SET_SHARED 2, 3, 4 with mark_valid; ENCODE_RAD1 is
its two operations (R88; the spec's decision D23). -/
def Obligations.PseudoOperationsAreTheirExpansions : Prop :=
  (∀ (i : Instr) (s : State), exec i.canonical s = exec i s)
  ∧ (∀ (v : Byte) (s : State), execAll [.seqInit, .setRadio .radio1 0 v] s = exec (.encodeRad1 v) s)
  ∧ (∀ v : Byte, (Instr.foldRad1 v).canonical = .setRadio .radio1 0 v
    ∧ (Instr.foldRad2 v).canonical = .setRadio .radio2 0 v
    ∧ (Instr.foldCtrl v).canonical = .ctrlByte v
    ∧ (Instr.foldWk v).canonical = .setShared 2 v true
    ∧ (Instr.foldFsk1 v).canonical = .setShared 3 v true
    ∧ (Instr.foldFsk2 v).canonical = .setShared 4 v true)

/-- R151: FOLD_RAD1 v is SET_RADIO 1, 0, v and FOLD_RAD2 v is SET_RADIO 2, 0, v: the datum goes to frame 0, byte 1
or 2, and nothing else changes, so both can be folded into one sequence. -/
def Obligations.RadioFoldsWriteFrameZero : Prop :=
  (∀ (v : Byte) (s : State), exec (.foldRad1 v) s = exec (.setRadio .radio1 0 v) s
    ∧ exec (.foldRad2 v) s = exec (.setRadio .radio2 0 v) s)
  ∧ ∀ (i : Instr) (v : Byte) (j : Nat) (valid msb : Byte) (s : State),
    (i = .foldRad1 v ∧ j = 1 ∧ valid = 0x20 ∧ msb = 0x04)
      ∨ (i = .foldRad2 v ∧ j = 2 ∧ valid = 0x10 ∧ msb = 0x02) →
    s.seqInit = true →
    ∃ t, exec i s = .next t
      ∧ memRead t j = some (0x80 ||| (v &&& 0x7F))
      ∧ memRead t 0 = (memRead s 0).map (fun y => y ||| valid ||| (if v[7] then msb else 0x00))
      ∧ (∀ a, a ≠ 0 → a ≠ j → memRead t a = memRead s a)
      ∧ t.seqCount.val = max s.seqCount.val 1 ∧ t.seqInit = true ∧ t.events = s.events
      ∧ SameReceive s t ∧ SameFramer s t ∧ SameRun s t

/-- R153, R154: FOLD_WK v is SET_SHARED 2, v, 1, FOLD_FSK1 v is SET_SHARED 3, v, 1 and FOLD_FSK2 v is SET_SHARED 4,
v, 1: the datum goes to that frame, COUNT is raised to at least 3, 4 or 5, and nothing else changes. The bytes are
those of R103; that SH_MSB follows v[7] is the spec's decision D5. -/
def Obligations.SharedFoldsWriteTheirFrame : Prop :=
  (∀ (v : Byte) (s : State), exec (.foldWk v) s = exec (.setShared 2 v true) s
    ∧ exec (.foldFsk1 v) s = exec (.setShared 3 v true) s
    ∧ exec (.foldFsk2 v) s = exec (.setShared 4 v true) s)
  ∧ ∀ (i : Instr) (v : Byte) (k : Nat) (s : State),
    (i = .foldWk v ∧ k = 2) ∨ (i = .foldFsk1 v ∧ k = 3) ∨ (i = .foldFsk2 v ∧ k = 4) →
    s.seqInit = true →
    ∃ t, exec i s = .next t
      ∧ memRead t (4 * k + 3) = some (0x80 ||| (v &&& 0x7F))
      ∧ memRead t (4 * k) = (memRead s (4 * k)).map
          (fun y => y ||| (if v[7] then 0x01 else 0x00) ||| 0x08)
      ∧ (∀ a, a ≠ 4 * k → a ≠ 4 * k + 3 → memRead t a = memRead s a)
      ∧ t.seqCount.val = max s.seqCount.val (k + 1) ∧ t.seqInit = true ∧ t.events = s.events
      ∧ SameReceive s t ∧ SameFramer s t ∧ SameRun s t

/-- R156: the folds of two different channels commute: the final state is the same in either order (the spec
derives it). -/
def Obligations.FoldsOfDifferentChannelsCommute : Prop :=
  ∀ (i j : Instr) (s : State), s.seqInit = true → (foldChannel i).isSome = true →
    (foldChannel j).isSome = true → foldChannel i ≠ foldChannel j →
    ∃ t, execAll [i, j] s = .next t ∧ execAll [j, i] s = .next t

/-- R155: SEQ_FINISH on a non-empty sequence ORs the RTS masks of both radios into the flags byte and its carry, on
an empty one does nothing; refused before SEQ_INIT. That non-empty means COUNT is not 0 is the spec's decision D18. -/
def Obligations.SeqFinishSetsRtsIfNonEmpty : Prop :=
  (∀ s : State, s.seqInit = true →
    let rts := Config.flagMask .rts .radio1 ||| Config.flagMask .rts .radio2
    ∃ t, exec .seqFinish s = .next t
      ∧ (s.seqCount ≠ 0 →
          memRead t 3 = (memRead s 3).map (fun b => b ||| (rts &&& 0x7F))
          ∧ memRead t 0 = (memRead s 0).map (fun y => y ||| (if rts[7] then 0x01 else 0x00)))
      ∧ (s.seqCount = 0 → t = s)
      ∧ (∀ a, a ≠ 0 → a ≠ 3 → memRead t a = memRead s a)
      ∧ t.seqCount = s.seqCount ∧ t.seqInit = true ∧ t.events = s.events
      ∧ SameReceive s t ∧ SameFramer s t ∧ SameRun s t)
  ∧ (∀ s : State, s.seqInit = false → exec .seqFinish s = .next (afterRefusal .seqUninit s))
  ∧ decodeCmd 0x8000 = some .seqFinish

/-- R157, R53: SEQ_SEND transmits the bytes at addresses 0 to 4 * COUNT - 1 in ascending order in one burst, nothing
when COUNT is 0, and writes no state; refused before SEQ_INIT. That it writes no state is the spec's decision D17. -/
def Obligations.SeqSendTransmitsLeadingFrames : Prop :=
  (∀ s : State, s.seqInit = true →
    ∃ t bs, exec .seqSend s = .next t
      ∧ t.events = s.events ++ (if s.seqCount = 0 then [] else [.tx bs])
      ∧ bs.length = 4 * s.seqCount.val ∧ (∀ a, a < 4 * s.seqCount.val → bs[a]? = memRead s a)
      ∧ (∀ a, memRead t a = memRead s a)
      ∧ SameReceive s t ∧ SameFramer s t ∧ SameSequence s t ∧ SameRun s t)
  ∧ (∀ s : State, s.seqInit = false → exec .seqSend s = .next (afterRefusal .seqUninit s))
  ∧ decodeCmd 0x9000 = some .seqSend

/-- R58: every burst any instruction produces is 4, 8, 12, 16 or 20 bytes and begins with byte 0 of frame 0. -/
def Obligations.BurstsAreWholeFrames : Prop :=
  ∀ (i : Instr) (s t : State) (new : List Event) (bs : List Byte), exec i s = .next t →
    t.events = s.events ++ new → Event.tx bs ∈ new →
    bs.length ∈ [4, 8, 12, 16, 20] ∧ bs.head? = memRead s 0

/-- R74, R75, R158: where the sequence keeps its invariant, every burst is canonical: bit 7 is clear in every fourth
byte and set in the others, CONT is clear in frame 0 and set in the frames after it, and frame 0 has SH_VALID. -/
def Obligations.TransmittedFramesAreCanonical : Prop :=
  ∀ (i : Instr) (s t : State) (new : List Event) (bs : List Byte), SeqInv s → exec i s = .next t →
    t.events = s.events ++ new → Event.tx bs ∈ new →
    (∀ a b, bs[a]? = some b → b[7] = decide (a % 4 ≠ 0))
    ∧ (∀ f b, bs[4 * f]? = some b → b[6] = decide (f ≠ 0))
    ∧ (∃ b, bs[0]? = some b ∧ b[3] = true)

/-! ### Refusals -/

/-- R194: while SEQ.init = 0 each sequence operation is refused with SeqUninit and changes nothing else; RX_BYTE,
SEQ_INIT and RESET never are; with SEQ.init = 1 nothing is refused for this reason (the spec's decision D13). -/
def Obligations.SeqUninitExactlyBeforeInit : Prop :=
  (∀ (i : Instr) (s : State), s.seqInit = false → needsSeq i = true →
    exec i s = .next (afterRefusal .seqUninit s))
  ∧ (∀ (i : Instr) (s : State), s.seqInit = true ∨ needsSeq i = false →
    ∃ t new, exec i s = .next t ∧ t.events = s.events ++ new ∧ Event.refused .seqUninit ∉ new)

/-- R193: an instruction sets the mark of a refusal exactly when it appends a Refused event, and never clears it;
it is refused only for the reasons R194 and R195 give. The mark is the spec's decision D14 and the model's log 5. -/
def Obligations.RefusalMarkMatchesEvents : Prop :=
  ∀ (i : Instr) (s : State), ∃ t new, exec i s = .next t ∧ t.events = s.events ++ new
    ∧ (t.refusalSeen = true ↔ s.refusalSeen = true ∨ ∃ r, Event.refused r ∈ new)
    ∧ ((∃ r, Event.refused r ∈ new) →
        (s.seqInit = false ∧ needsSeq i = true) ∨ i.wellFormed = false)

/-- R193, R170: a refusal is never produced by the scheduler's operation streams: after any number of its cycles, from
any state, the mark is what it was and no Refused event has been appended (decision D14). -/
def Obligations.SchedulerStreamsNeverRefused : Prop :=
  ∀ (cycles : List CycleInput) (s : State),
    ∃ t new, execAll (cycles.flatMap cycleOps) s = .next t ∧ t.events = s.events ++ new
      ∧ t.refusalSeen = s.refusalSeen ∧ ∀ r, Event.refused r ∉ new

/-! ### Invariants and independence -/

/-- R37: every step keeps the invariant of the sequence buffer (the spec derives it from R100 to R106). The
fillers in it are the spec's decision D4. -/
def Obligations.StepKeepsSequenceInvariant : Prop :=
  ∀ s t : State, SeqInv s → step s = .next t → SeqInv t

/-- The power-up state has the invariant of the sequence buffer (R37, R38), and SEQ_INIT gives it in every state. The
fillers in it are the spec's decision D4. -/
def Obligations.SequenceInvariantEstablished : Prop :=
  SeqInv State.reset ∧ ∀ s t : State, exec .seqInit s = .next t → SeqInv t

/-- R171, R173: receiving and the sequence operations touch disjoint state: in either order they leave the same state
but for the order of their events (the spec derives it from R22). For FRAME.START and FRAME.CONT it rests on
log 4. -/
def Obligations.ReceiveAndBuildIndependent : Prop :=
  ∀ (r q : Instr) (s : State), isReceive r = true → isReceive q = false → q ≠ .reset →
    ∃ t u er eq, execAll [r, q] s = .next t ∧ execAll [q, r] s = .next u
      ∧ t.events = s.events ++ er ++ eq ∧ u.events = s.events ++ eq ++ er
      ∧ SameReceive t u ∧ SameFramer t u ∧ SameSequence t u ∧ SameRun t u

/-- R22, R171: an instruction that receives leaves the framer and the sequence alone, and one that does not leaves RXB,
RXN and POS alone, RESET apart. For FRAME.START and FRAME.CONT it rests on log 4. -/
def Obligations.PartsKeepToTheirState : Prop :=
  ∀ (i : Instr) (s t : State), exec i s = .next t →
    (isReceive i = true → SameFramer s t ∧ SameSequence s t ∧ SameRun s t)
    ∧ (isReceive i = false → i ≠ .reset → SameReceive s t)
end

