-- ==== Sys2Proof/Laws/Decode.lean ====
section
/-! SUPPORT. The fields of a command word and of a frame word read back what they were built from, and a
command word is its four fields. -/

namespace Sys2Proof

@[simp] theorem opField_cmdWord (op a i v) : opField (cmdWord op a i v) = op := by
  ext k hk
  simp only [opField, cmdWord, BitVec.getElem_extractLsb', BitVec.getLsbD_append]
  have h1 : ¬ 12 + k < 8 := by omega
  have h2 : ¬ 12 + k - 8 < 3 := by omega
  have h3 : ¬ 12 + k - 8 - 3 < 1 := by omega
  simp only [h1, h2, h3, ite_false]
  rw [show 12 + k - 8 - 3 - 1 = k by omega, BitVec.getLsbD_eq_getElem hk]

@[simp] theorem aField_cmdWord (op a i v) : aField (cmdWord op a i v) = a := by
  simp only [aField, cmdWord, ← BitVec.getLsbD_eq_getElem, BitVec.getLsbD_append]
  simp

@[simp] theorem iField_cmdWord (op a i v) : iField (cmdWord op a i v) = i := by
  ext k hk
  simp only [iField, cmdWord, BitVec.getElem_extractLsb', BitVec.getLsbD_append]
  have h1 : ¬ 8 + k < 8 := by omega
  have h2 : 8 + k - 8 < 3 := by omega
  simp only [h1, h2, ite_false, ite_true]
  rw [show 8 + k - 8 = k by omega, BitVec.getLsbD_eq_getElem hk]

@[simp] theorem vField_cmdWord (op a i v) : vField (cmdWord op a i v) = v := by
  ext k hk
  simp only [vField, cmdWord, BitVec.getElem_extractLsb', BitVec.getLsbD_append]
  have h1 : 0 + k < 8 := by omega
  simp only [h1, ite_true]
  rw [show 0 + k = k by omega, BitVec.getLsbD_eq_getElem hk]

/-- A command word is its four fields, so a claim about every word splits over them. -/
theorem cmdWord_fields (w : CmdWord) : cmdWord (opField w) (aField w) (iField w) (vField w) = w := by
  ext k hk
  simp only [cmdWord, opField, aField, iField, vField, ← BitVec.getLsbD_eq_getElem,
    BitVec.getLsbD_append, BitVec.getLsbD_extractLsb']
  have : k = 0 ∨ k = 1 ∨ k = 2 ∨ k = 3 ∨ k = 4 ∨ k = 5 ∨ k = 6 ∨ k = 7 ∨ k = 8 ∨ k = 9 ∨ k = 10
    ∨ k = 11 ∨ k = 12 ∨ k = 13 ∨ k = 14 ∨ k = 15 := by omega
  rcases this with h | h | h | h | h | h | h | h | h | h | h | h | h | h | h | h <;> subst h <;> simp

@[simp] theorem radioOfBit_bitOfRadio (r : Radio) : radioOfBit (bitOfRadio r) = r := by
  cases r <;> rfl

@[simp] theorem kindOfField_fieldOfKind (k : FlagKind) : kindOfField (fieldOfKind k) = k := by
  cases k <;> rfl

@[simp] theorem fieldOfKind_bit_two (k : FlagKind) : (fieldOfKind k)[2] = false := by
  cases k <;> rfl

@[simp] theorem whenZero_true (i : Instr) : whenZero true i = some i := rfl
@[simp] theorem whenZero_false (i : Instr) : whenZero false i = none := rfl

/-- `whenZero` answers only its instruction, and only when the fields are zero. -/
theorem whenZero_eq_some (b : Bool) (i j : Instr) : whenZero b i = some j ↔ b = true ∧ i = j := by
  cases b <;> simp

/-- A command word written as the OR of its fields in their places (R85). -/
theorem cmdWord_or (op : BitVec 4) (a : Bool) (i : BitVec 3) (v : Byte) :
    op.setWidth 16 <<< 12 ||| (BitVec.ofBool a).setWidth 16 <<< 11 ||| i.setWidth 16 <<< 8
      ||| v.setWidth 16 = cmdWord op a i v := by
  ext k hk
  simp only [cmdWord, ← BitVec.getLsbD_eq_getElem, BitVec.getLsbD_append, BitVec.getLsbD_or,
    BitVec.getLsbD_shiftLeft, BitVec.getLsbD_setWidth]
  have : k = 0 ∨ k = 1 ∨ k = 2 ∨ k = 3 ∨ k = 4 ∨ k = 5 ∨ k = 6 ∨ k = 7 ∨ k = 8 ∨ k = 9 ∨ k = 10
    ∨ k = 11 ∨ k = 12 ∨ k = 13 ∨ k = 14 ∨ k = 15 := by omega
  rcases this with h | h | h | h | h | h | h | h | h | h | h | h | h | h | h | h <;> subst h <;> simp

/-- Masking a command word masks its fields. -/
theorem cmdWord_and (op a i v op' a' i' v') :
    cmdWord op a i v &&& cmdWord op' a' i' v'
      = cmdWord (op &&& op') (a && a') (i &&& i') (v &&& v') := by
  have hb : BitVec.ofBool (a && a') = BitVec.ofBool a &&& BitVec.ofBool a' := by
    cases a <;> cases a' <;> rfl
  show ((op ++ BitVec.ofBool a ++ i ++ v : BitVec (4 + 1 + 3 + 8))
      &&& (op' ++ BitVec.ofBool a' ++ i' ++ v' : BitVec (4 + 1 + 3 + 8)))
    = ((op &&& op') ++ BitVec.ofBool (a && a') ++ (i &&& i') ++ (v &&& v') : BitVec (4 + 1 + 3 + 8))
  rw [hb, BitVec.and_append, BitVec.and_append, BitVec.and_append]

/-- Two command words are equal when their fields are. -/
theorem cmdWord_inj (op a i v op' a' i' v') :
    cmdWord op a i v = cmdWord op' a' i' v' ↔ op = op' ∧ a = a' ∧ i = i' ∧ v = v' := by
  constructor
  · intro h
    exact ⟨by simpa using congrArg opField h, by simpa using congrArg aField h,
      by simpa using congrArg iField h, by simpa using congrArg vField h⟩
  · rintro ⟨rfl, rfl, rfl, rfl⟩; rfl

/-- What the decoder says of a command word, by its fields. -/
theorem decodeCmd_cmdWord (op : BitVec 4) (a : Bool) (i : BitVec 3) (v : Byte) :
    decodeCmd (cmdWord op a i v) =
      match op.toNat with
      | 0 => whenZero (!a && i == 0 && v == 0) .reset
      | 1 => whenZero (!a && i == 0) (.rxByte v)
      | 2 => whenZero (!a && i == 0 && v == 0) .seqInit
      | 3 => whenZero (!i[2] && v == 0) (.setFlag (radioOfBit a) (kindOfField i))
      | 4 => some (.setRadio (radioOfBit a) i v)
      | 5 => some (.setShared i v a)
      | 6 => whenZero (!a && i == 0 && v == 0) .frameCount
      | 7 => whenZero (!a && i == 0) (.ctrlByte v)
      | 8 => whenZero (!a && i == 0 && v == 0) .seqFinish
      | 9 => whenZero (!a && i == 0 && v == 0) .seqSend
      | _ => none := by
  simp only [decodeCmd, opField_cmdWord, aField_cmdWord, iField_cmdWord, vField_cmdWord] <;> rfl

theorem frameWord_canonical (c : Bool) (x : FrameFields) :
    isCanonicalFrame (frameWord c x) = true := by
  simp only [isCanonicalFrame, frameWord, ← BitVec.getLsbD_eq_getElem, BitVec.getLsbD_append]
  simp

@[simp] theorem frameWord_cont (c : Bool) (x : FrameFields) : (frameWord c x)[30] = c := by
  simp only [frameWord, ← BitVec.getLsbD_eq_getElem, BitVec.getLsbD_append]
  simp

@[simp] theorem frameFields_frameWord (c : Bool) (x : FrameFields) :
    frameFields (frameWord c x) = x := by
  obtain ⟨u, w, y, p, q, r, d, e, f⟩ := x
  simp only [frameFields, frameWord, FrameFields.mk.injEq]
  refine ⟨?_, ?_, ?_, ?_, ?_, ?_, ?_, ?_, ?_⟩
  case refine_7 =>
    ext k hk
    simp only [BitVec.getElem_extractLsb', BitVec.getLsbD_append]
    have h1 : ¬ 16 + k < 7 := by omega
    have h2 : ¬ 16 + k - 7 < 1 := by omega
    have h3 : ¬ 16 + k - 7 - 1 < 7 := by omega
    have h4 : ¬ 16 + k - 7 - 1 - 7 < 1 := by omega
    have h5 : 16 + k - 7 - 1 - 7 - 1 < 7 := by omega
    simp only [h1, h2, h3, h4, h5, ite_false, ite_true]
    rw [show 16 + k - 7 - 1 - 7 - 1 = k by omega, BitVec.getLsbD_eq_getElem hk]
  case refine_8 =>
    ext k hk
    simp only [BitVec.getElem_extractLsb', BitVec.getLsbD_append]
    have h1 : ¬ 8 + k < 7 := by omega
    have h2 : ¬ 8 + k - 7 < 1 := by omega
    have h3 : 8 + k - 7 - 1 < 7 := by omega
    simp only [h1, h2, h3, ite_false, ite_true]
    rw [show 8 + k - 7 - 1 = k by omega, BitVec.getLsbD_eq_getElem hk]
  case refine_9 =>
    ext k hk
    simp only [BitVec.getElem_extractLsb', BitVec.getLsbD_append]
    have h1 : 0 + k < 7 := by omega
    simp only [h1, ite_true]
    rw [show 0 + k = k by omega, BitVec.getLsbD_eq_getElem hk]
  all_goals
    simp only [← BitVec.getLsbD_eq_getElem, BitVec.getLsbD_append]
    simp

end Sys2Proof
end

