-- ==== Sys2Proof/Laws/State.lean ====
section
/-! SUPPORT. One lemma per field per update of the state, each true by unfolding one definition, so that no
later proof unfolds a record update. -/

namespace Sys2Proof.Machine

open Sys2Proof


/-! ### An event appended (R34) -/

@[simp] theorem State.append_rxb (s : State) (e : Event) : (s.append e).rxb = s.rxb := rfl
@[simp] theorem State.append_rxn (s : State) (e : Event) : (s.append e).rxn = s.rxn := rfl
@[simp] theorem State.append_pos (s : State) (e : Event) : (s.append e).pos = s.pos := rfl
@[simp] theorem State.append_cfInCmd (s : State) (e : Event) : (s.append e).cfInCmd = s.cfInCmd := rfl
@[simp] theorem State.append_cfTerm (s : State) (e : Event) : (s.append e).cfTerm = s.cfTerm := rfl
@[simp] theorem State.append_seqInit (s : State) (e : Event) : (s.append e).seqInit = s.seqInit := rfl
@[simp] theorem State.append_seqF (s : State) (e : Event) : (s.append e).seqF = s.seqF := rfl
@[simp] theorem State.append_seqCount (s : State) (e : Event) : (s.append e).seqCount = s.seqCount := rfl
@[simp] theorem State.append_events (s : State) (e : Event) : (s.append e).events = s.events ++ [e] := rfl
@[simp] theorem State.append_refusalSeen (s : State) (e : Event) : (s.append e).refusalSeen = s.refusalSeen := rfl
@[simp] theorem State.append_input (s : State) (e : Event) : (s.append e).input = s.input := rfl
@[simp] theorem State.append_fresh (s : State) (e : Event) : (s.append e).fresh = s.fresh := rfl

/-! ### A refusal (R193) -/

@[simp] theorem refuse_rxb (r : Reason) (s : State) : (refuse r s).rxb = s.rxb := rfl
@[simp] theorem refuse_rxn (r : Reason) (s : State) : (refuse r s).rxn = s.rxn := rfl
@[simp] theorem refuse_pos (r : Reason) (s : State) : (refuse r s).pos = s.pos := rfl
@[simp] theorem refuse_cfInCmd (r : Reason) (s : State) : (refuse r s).cfInCmd = s.cfInCmd := rfl
@[simp] theorem refuse_cfTerm (r : Reason) (s : State) : (refuse r s).cfTerm = s.cfTerm := rfl
@[simp] theorem refuse_seqInit (r : Reason) (s : State) : (refuse r s).seqInit = s.seqInit := rfl
@[simp] theorem refuse_seqF (r : Reason) (s : State) : (refuse r s).seqF = s.seqF := rfl
@[simp] theorem refuse_seqCount (r : Reason) (s : State) : (refuse r s).seqCount = s.seqCount := rfl
@[simp] theorem refuse_events (r : Reason) (s : State) : (refuse r s).events = s.events ++ [.refused r] := rfl
@[simp] theorem refuse_refusalSeen (r : Reason) (s : State) : (refuse r s).refusalSeen = true := rfl
@[simp] theorem refuse_input (r : Reason) (s : State) : (refuse r s).input = s.input := rfl
@[simp] theorem refuse_fresh (r : Reason) (s : State) : (refuse r s).fresh = s.fresh := rfl

/-! ### A frame updated (R104) -/

@[simp] theorem updateFrame_rxb (i : Fin 5) (g : Frame → Frame) (s : State) : (updateFrame i g s).rxb = s.rxb := rfl
@[simp] theorem updateFrame_rxn (i : Fin 5) (g : Frame → Frame) (s : State) : (updateFrame i g s).rxn = s.rxn := rfl
@[simp] theorem updateFrame_pos (i : Fin 5) (g : Frame → Frame) (s : State) : (updateFrame i g s).pos = s.pos := rfl
@[simp] theorem updateFrame_cfInCmd (i : Fin 5) (g : Frame → Frame) (s : State) : (updateFrame i g s).cfInCmd = s.cfInCmd := rfl
@[simp] theorem updateFrame_cfTerm (i : Fin 5) (g : Frame → Frame) (s : State) : (updateFrame i g s).cfTerm = s.cfTerm := rfl
@[simp] theorem updateFrame_seqInit (i : Fin 5) (g : Frame → Frame) (s : State) : (updateFrame i g s).seqInit = s.seqInit := rfl
@[simp] theorem updateFrame_seqF (i : Fin 5) (g : Frame → Frame) (s : State) : (updateFrame i g s).seqF = s.seqF.set i (g s.seqF[i]) := rfl
@[simp] theorem updateFrame_seqCount (i : Fin 5) (g : Frame → Frame) (s : State) : (updateFrame i g s).seqCount = raisedCount s.seqCount i := rfl
@[simp] theorem updateFrame_events (i : Fin 5) (g : Frame → Frame) (s : State) : (updateFrame i g s).events = s.events := rfl
@[simp] theorem updateFrame_refusalSeen (i : Fin 5) (g : Frame → Frame) (s : State) : (updateFrame i g s).refusalSeen = s.refusalSeen := rfl
@[simp] theorem updateFrame_input (i : Fin 5) (g : Frame → Frame) (s : State) : (updateFrame i g s).input = s.input := rfl
@[simp] theorem updateFrame_fresh (i : Fin 5) (g : Frame → Frame) (s : State) : (updateFrame i g s).fresh = s.fresh := rfl

/-! ### SEQ_INIT (R100) -/

@[simp] theorem initSequence_rxb (s : State) : (initSequence s).rxb = s.rxb := rfl
@[simp] theorem initSequence_rxn (s : State) : (initSequence s).rxn = s.rxn := rfl
@[simp] theorem initSequence_pos (s : State) : (initSequence s).pos = s.pos := rfl
@[simp] theorem initSequence_cfInCmd (s : State) : (initSequence s).cfInCmd = s.cfInCmd := rfl
@[simp] theorem initSequence_cfTerm (s : State) : (initSequence s).cfTerm = s.cfTerm := rfl
@[simp] theorem initSequence_seqInit (s : State) : (initSequence s).seqInit = true := rfl
@[simp] theorem initSequence_seqF (s : State) : (initSequence s).seqF = #v[initFrame 0, initFrame 1, initFrame 2, initFrame 3, initFrame 4] := rfl
@[simp] theorem initSequence_seqCount (s : State) : (initSequence s).seqCount = 0 := rfl
@[simp] theorem initSequence_events (s : State) : (initSequence s).events = s.events := rfl
@[simp] theorem initSequence_refusalSeen (s : State) : (initSequence s).refusalSeen = s.refusalSeen := rfl
@[simp] theorem initSequence_input (s : State) : (initSequence s).input = s.input := rfl
@[simp] theorem initSequence_fresh (s : State) : (initSequence s).fresh = s.fresh := rfl

/-! ### RESET (R220); what it leaves unspecified has no lemma -/

@[simp] theorem resetBlock_rxn (s : State) : (resetBlock s).rxn = 0 := rfl
@[simp] theorem resetBlock_pos (s : State) : (resetBlock s).pos = 0 := rfl
@[simp] theorem resetBlock_cfInCmd (s : State) : (resetBlock s).cfInCmd = false := rfl
@[simp] theorem resetBlock_seqInit (s : State) : (resetBlock s).seqInit = false := rfl
@[simp] theorem resetBlock_events (s : State) : (resetBlock s).events = s.events := rfl
@[simp] theorem resetBlock_refusalSeen (s : State) : (resetBlock s).refusalSeen = s.refusalSeen := rfl
@[simp] theorem resetBlock_input (s : State) : (resetBlock s).input = s.input := rfl
@[simp] theorem resetBlock_fresh (s : State) : (resetBlock s).fresh = s.fresh + 26 := rfl

/-! ### The head item taken (R21) -/

@[simp] theorem State.afterFetch_rxb (s : State) (left rest : List Item) : (s.afterFetch left rest).rxb = s.rxb := rfl
@[simp] theorem State.afterFetch_rxn (s : State) (left rest : List Item) : (s.afterFetch left rest).rxn = s.rxn := rfl
@[simp] theorem State.afterFetch_pos (s : State) (left rest : List Item) : (s.afterFetch left rest).pos = s.pos := rfl
@[simp] theorem State.afterFetch_cfInCmd (s : State) (left rest : List Item) : (s.afterFetch left rest).cfInCmd = s.cfInCmd := rfl
@[simp] theorem State.afterFetch_cfTerm (s : State) (left rest : List Item) : (s.afterFetch left rest).cfTerm = s.cfTerm := rfl
@[simp] theorem State.afterFetch_seqInit (s : State) (left rest : List Item) : (s.afterFetch left rest).seqInit = s.seqInit := rfl
@[simp] theorem State.afterFetch_seqF (s : State) (left rest : List Item) : (s.afterFetch left rest).seqF = s.seqF := rfl
@[simp] theorem State.afterFetch_seqCount (s : State) (left rest : List Item) : (s.afterFetch left rest).seqCount = s.seqCount := rfl
@[simp] theorem State.afterFetch_events (s : State) (left rest : List Item) : (s.afterFetch left rest).events = s.events := rfl
@[simp] theorem State.afterFetch_refusalSeen (s : State) (left rest : List Item) : (s.afterFetch left rest).refusalSeen = s.refusalSeen := rfl
@[simp] theorem State.afterFetch_input (s : State) (left rest : List Item) : (s.afterFetch left rest).input = left ++ rest := rfl
@[simp] theorem State.afterFetch_fresh (s : State) (left rest : List Item) : (s.afterFetch left rest).fresh = s.fresh := rfl

/-! ### An instruction offered -/

@[simp] theorem State.withFetchWord_rxb (s : State) (nbits w : Nat) : (s.withFetchWord nbits w).rxb = s.rxb := rfl
@[simp] theorem State.withFetchWord_rxn (s : State) (nbits w : Nat) : (s.withFetchWord nbits w).rxn = s.rxn := rfl
@[simp] theorem State.withFetchWord_pos (s : State) (nbits w : Nat) : (s.withFetchWord nbits w).pos = s.pos := rfl
@[simp] theorem State.withFetchWord_cfInCmd (s : State) (nbits w : Nat) : (s.withFetchWord nbits w).cfInCmd = s.cfInCmd := rfl
@[simp] theorem State.withFetchWord_cfTerm (s : State) (nbits w : Nat) : (s.withFetchWord nbits w).cfTerm = s.cfTerm := rfl
@[simp] theorem State.withFetchWord_seqInit (s : State) (nbits w : Nat) : (s.withFetchWord nbits w).seqInit = s.seqInit := rfl
@[simp] theorem State.withFetchWord_seqF (s : State) (nbits w : Nat) : (s.withFetchWord nbits w).seqF = s.seqF := rfl
@[simp] theorem State.withFetchWord_seqCount (s : State) (nbits w : Nat) : (s.withFetchWord nbits w).seqCount = s.seqCount := rfl
@[simp] theorem State.withFetchWord_events (s : State) (nbits w : Nat) : (s.withFetchWord nbits w).events = s.events := rfl
@[simp] theorem State.withFetchWord_refusalSeen (s : State) (nbits w : Nat) : (s.withFetchWord nbits w).refusalSeen = s.refusalSeen := rfl
@[simp] theorem State.withFetchWord_input (s : State) (nbits w : Nat) : (s.withFetchWord nbits w).input = itemOfBits nbits w :: s.input := rfl
@[simp] theorem State.withFetchWord_fresh (s : State) (nbits w : Nat) : (s.withFetchWord nbits w).fresh = s.fresh := rfl

/-! ### An emitted byte (R34): only the event stream changes -/

/-- Everything `emit` can do. -/
theorem emit_eq (ch : Channel) (v : Byte) (s : State) :
    emit ch v s = s.append (if ch = .flags then .status v else .byte ch v) := by
  cases ch <;> rfl

@[simp] theorem emit_rxb (ch : Channel) (v : Byte) (s : State) : (emit ch v s).rxb = s.rxb := by
  rw [emit_eq, State.append_rxb]
@[simp] theorem emit_rxn (ch : Channel) (v : Byte) (s : State) : (emit ch v s).rxn = s.rxn := by
  rw [emit_eq, State.append_rxn]
@[simp] theorem emit_pos (ch : Channel) (v : Byte) (s : State) : (emit ch v s).pos = s.pos := by
  rw [emit_eq, State.append_pos]
@[simp] theorem emit_cfInCmd (ch : Channel) (v : Byte) (s : State) : (emit ch v s).cfInCmd = s.cfInCmd := by
  rw [emit_eq, State.append_cfInCmd]
@[simp] theorem emit_cfTerm (ch : Channel) (v : Byte) (s : State) : (emit ch v s).cfTerm = s.cfTerm := by
  rw [emit_eq, State.append_cfTerm]
@[simp] theorem emit_seqInit (ch : Channel) (v : Byte) (s : State) : (emit ch v s).seqInit = s.seqInit := by
  rw [emit_eq, State.append_seqInit]
@[simp] theorem emit_seqF (ch : Channel) (v : Byte) (s : State) : (emit ch v s).seqF = s.seqF := by
  rw [emit_eq, State.append_seqF]
@[simp] theorem emit_seqCount (ch : Channel) (v : Byte) (s : State) : (emit ch v s).seqCount = s.seqCount := by
  rw [emit_eq, State.append_seqCount]
@[simp] theorem emit_refusalSeen (ch : Channel) (v : Byte) (s : State) : (emit ch v s).refusalSeen = s.refusalSeen := by
  rw [emit_eq, State.append_refusalSeen]
@[simp] theorem emit_input (ch : Channel) (v : Byte) (s : State) : (emit ch v s).input = s.input := by
  rw [emit_eq, State.append_input]
@[simp] theorem emit_fresh (ch : Channel) (v : Byte) (s : State) : (emit ch v s).fresh = s.fresh := by
  rw [emit_eq, State.append_fresh]

end Sys2Proof.Machine
end

