-- ==== Sys2Proof/Laws/Ops.lean ====
section
/-! SUPPORT. What each shared operation can do, said once: the sequence space, the setters, the decoder step,
the assembler, the framer, and that every instruction answers a next state. -/

namespace Sys2Proof.Machine

open Sys2Proof

/-! ### Refusals (R193, R194) -/

theorem refuse_eq (r : Reason) (s : State) : refuse r s = afterRefusal r s := rfl

theorem ifInit_ready (f : State → State) {s : State} (h : s.seqInit = true) : ifInit f s = f s := by
  simp [ifInit, h]

theorem ifInit_uninit (f : State → State) {s : State} (h : s.seqInit = false) :
    ifInit f s = afterRefusal .seqUninit s := by
  simp [ifInit, h, refuse_eq]

/-- Everything `ifInit` can do. -/
theorem ifInit_cases (f : State → State) (s : State) :
    (s.seqInit = true ∧ ifInit f s = f s)
      ∨ (s.seqInit = false ∧ ifInit f s = afterRefusal .seqUninit s) := by
  cases h : s.seqInit
  · exact .inr ⟨rfl, ifInit_uninit f h⟩
  · exact .inl ⟨rfl, ifInit_ready f h⟩

/-! ### The sequence space (R50) -/

/-- Byte `j` of frame `i` is at `4 * i + j`. -/
theorem memRead_seqAddr (s : State) (i : Fin 5) (j : Fin 4) :
    memRead s (4 * i.val + j.val) = some (s.seqF[i].byte j) := by
  have h : 4 * i.val + j.val < 20 := by omega
  have hi : frameOfAddr (4 * i.val + j.val) h = i := by
    apply Fin.ext; simp only [frameOfAddr]; omega
  have hj : byteOfAddr (4 * i.val + j.val) = j := by
    apply Fin.ext; simp only [byteOfAddr]; omega
  simp only [memRead, h, dite_true, hi, hj]

/-- No address outside 0..19 exists. -/
theorem memRead_outside (s : State) {a : Nat} (h : 20 ≤ a) : memRead s a = none := by
  simp [memRead, Nat.not_lt.mpr h]

/-- Every address of the space is some byte of some frame. -/
theorem exists_seqAddr {a : Nat} (h : a < 20) : ∃ (i : Fin 5) (j : Fin 4), a = 4 * i.val + j.val :=
  ⟨⟨a / 4, by omega⟩, ⟨a % 4, by omega⟩, by simp only; omega⟩

theorem Frame.byte_setByte (f : Frame) (j k : Fin 4) (v : Byte) :
    (f.setByte j v).byte k = if k = j then v else f.byte k := by
  revert j k; intro j k
  match j, k with
  | 0, 0 | 0, 1 | 0, 2 | 0, 3 | 1, 0 | 1, 1 | 1, 2 | 1, 3 | 2, 0 | 2, 1 | 2, 2 | 2, 3
  | 3, 0 | 3, 1 | 3, 2 | 3, 3 => rfl

/-- A read after a write gives the byte written there and the old byte everywhere else (R50). -/
theorem memRead_memWrite (s : State) (a b : Nat) (v : Byte) :
    memRead (memWrite s a v) b = if b = a ∧ a < 20 then some v else memRead s b := by
  by_cases ha : a < 20
  · by_cases hb : b < 20
    · obtain ⟨i, j, rfl⟩ := exists_seqAddr hb
      have e : frameOfAddr a ha = i ∧ byteOfAddr a = j ↔ 4 * i.val + j.val = a := by
        simp only [frameOfAddr, byteOfAddr, Fin.ext_iff]; omega
      rw [memRead_seqAddr, memRead_seqAddr]
      simp only [memWrite, ha, dite_true, and_true, Fin.getElem_fin, Vector.getElem_set]
      by_cases hi : frameOfAddr a ha = i
      · subst hi
        simp only [true_and] at e
        simp only [ite_true, Frame.byte_setByte]
        by_cases hj : byteOfAddr a = j
        · rw [if_pos hj.symm, if_pos (e.mp hj)]
        · rw [if_neg (fun h => hj h.symm), if_neg (fun h => hj (e.mpr h))]
      · have hne : ¬ (frameOfAddr a ha).val = i.val := fun h => hi (Fin.ext h)
        rw [if_neg hne, if_neg (fun h => hi (e.mpr h).1)]
    · have hb' := Nat.not_lt.mp hb
      rw [memRead_outside _ hb', memRead_outside _ hb', if_neg]
      omega
  · simp [memWrite, ha]

/-- The cells of the sequence space always have their one form, so equal spaces are equal lists. -/
theorem seqCells_wf (s : State) : Memory.wf (seqCells s) = true := by
  obtain ⟨rxb, rxn, pos, a, b, c, ⟨⟨l⟩, hl⟩, e, ev, m, inp, fr⟩ := s
  match l, hl with
  | [f0, f1, f2, f3, f4], _ => rfl

/-- Frame `k` after frame `i` was updated. -/
theorem updateFrame_frame (i k : Fin 5) (g : Frame → Frame) (s : State) :
    (updateFrame i g s).seqF[k] = if k = i then g s.seqF[i] else s.seqF[k] := by
  simp only [updateFrame_seqF, Fin.getElem_fin, Vector.getElem_set, Fin.ext_iff]
  by_cases h : i.val = k.val
  · simp [h]
  · simp [h, Ne.symm h]

theorem raisedCount_val (c : Fin 6) (i : Fin 5) : (raisedCount c i).val = max c.val (i.val + 1) := by
  simp only [raisedCount]
  rcases le_total c i.succ with h | h
  · rw [max_eq_right h, max_eq_right (by simpa [Fin.le_def] using h)]; simp
  · rw [max_eq_left h, max_eq_left (by simpa [Fin.le_def] using h)]

/-- SEQ.F[i] after SEQ_INIT (R100). -/
theorem initSequence_frame (i : Fin 5) (s : State) : (initSequence s).seqF[i] = initFrame i := by
  match i with
  | 0 | 1 | 2 | 3 | 4 => rfl

/-! ### The setters (R101 to R103) -/

theorem frameIndex_legal {i : BitVec 3} (h : i.toNat ≤ 4) :
    frameIndex i = some ⟨i.toNat, by omega⟩ := by
  simp [frameIndex, Nat.lt_succ_of_le h]

theorem frameIndex_illegal {i : BitVec 3} (h : 4 < i.toNat) : frameIndex i = none := by
  simp [frameIndex]; omega

theorem setSlot_legal {i : BitVec 3} (g : Frame → Frame) {s : State} (hs : s.seqInit = true)
    (h : i.toNat ≤ 4) : setSlot i g s = updateFrame ⟨i.toNat, by omega⟩ g s := by
  simp only [setSlot, ifInit_ready _ hs, frameIndex_legal h]

theorem setSlot_illegal {i : BitVec 3} (g : Frame → Frame) {s : State} (hs : s.seqInit = true)
    (h : 4 < i.toNat) : setSlot i g s = afterRefusal .badFrameIndex s := by
  simp only [setSlot, ifInit_ready _ hs, frameIndex_illegal h, refuse_eq]

theorem setSlot_uninit (i : BitVec 3) (g : Frame → Frame) {s : State} (hs : s.seqInit = false) :
    setSlot i g s = afterRefusal .seqUninit s := ifInit_uninit _ hs

/-- Everything a setter on an index operand can do. -/
theorem setSlot_cases (i : BitVec 3) (g : Frame → Frame) (s : State) :
    (∃ k : Fin 5, k.val = i.toNat ∧ s.seqInit = true ∧ setSlot i g s = updateFrame k g s)
      ∨ ∃ r, setSlot i g s = afterRefusal r s := by
  cases hs : s.seqInit
  · exact .inr ⟨_, setSlot_uninit i g hs⟩
  · rcases Nat.lt_or_ge 4 i.toNat with h | h
    · exact .inr ⟨_, setSlot_illegal g hs h⟩
    · exact .inl ⟨_, rfl, rfl, setSlot_legal g hs h⟩

/-- Everything SET_FLAG can do. -/
theorem setFlag_cases (radio : Radio) (kind : FlagKind) (s : State) :
    (s.seqInit = true ∧
        setFlag radio kind s = updateFrame 0 (fun f => f.orFlags (Config.flagMask kind radio)) s)
      ∨ setFlag radio kind s = afterRefusal .seqUninit s := by
  rcases ifInit_cases (putFlag (Config.flagMask kind radio)) s with ⟨h, e⟩ | ⟨_, e⟩
  · exact .inl ⟨h, e⟩
  · exact .inr e

/-! ### Data and the decoder step (R73, R105, R121) -/

/-- The machine's datum is the spec's `{carry, b[6:0]}` (R73). -/
theorem datum_eq_joinDatum (carry : Bool) (b : Byte) : datum carry b = joinDatum carry b := by
  cases carry <;> revert b <;> decide

/-- A datum written to a slot reads back (R73). -/
theorem joinDatum_wireByte (v : Byte) : joinDatum v[7] (wireByte v) = v := by
  revert v; decide

theorem resyncs_eq (y : Byte) :
    resyncs y = decide (y[7] = false ∧ y[6] = false) := by
  revert y; decide

theorem resync_eq (f : Frame) (s : State) :
    resync f s = { s with pos := dispatchPosition f.sync s.pos } := by
  simp only [resync, resyncs_eq, dispatchPosition, decide_eq_true_eq]
  split <;> rfl

/-- What the shared byte `d` says at position `p` (R123). -/
def sharedEvents (d : Byte) (p : Nat) : List Event :=
  if p = 0 then [.status d]
  else if p = 1 then (if d = 0#8 then [] else [.byte .control d])
  else if p = 2 then [.byte .winkey d]
  else if p = 3 then [.byte .keyboard d]
  else [.anomaly]

theorem dispatchShared_eq (d : Byte) (s : State) :
    dispatchShared d s = { s with events := s.events ++ sharedEvents d s.pos } := by
  obtain ⟨rxb, rxn, pos, a, b, c, f, e, ev, m, inp, fr⟩ := s
  match pos with
  | 0 | 2 | 3 | n + 4 => simp [dispatchShared, sharedEvents, decodeChannel, emit, State.append]
  | 1 =>
    by_cases hd : d = 0#8 <;>
      simp [dispatchShared, sharedEvents, decodeChannel, emit, State.append, hd]

theorem dispatchIf_eq (d : Option Byte) (s : State) :
    dispatchIf d s = { s with events := s.events ++ (d.map (sharedEvents · s.pos)).getD [] } := by
  cases d with
  | none => simp [dispatchIf]
  | some d => simp [dispatchIf, dispatchShared_eq]

theorem emitIf_eq (ch : Channel) (h : ch ≠ .flags) (v : Option Byte) (s : State) :
    emitIf ch v s = { s with events := s.events ++ (v.map (Event.byte ch)).toList } := by
  cases v with
  | none => simp [emitIf]
  | some v => simp [emitIf, emit_eq, h, State.append]

/-- One decoder step: the position moves on from where it was dispatched, and the frame's events are
appended; nothing else (R121). -/
theorem dec_eq (f : Frame) (s : State) :
    dec f s = { s with
      pos := dispatchPosition f.sync s.pos + 1
      events := s.events ++ frameEvents f.sync f.rad1 f.rad2 f.shared (dispatchPosition f.sync s.pos) } := by
  unfold dec
  simp only [resync_eq, emitIf_eq .rad1 (by decide), emitIf_eq .rad2 (by decide), dispatchIf_eq,
    decodeFrame, datum_eq_joinDatum]
  congr 1
  simp only [frameEvents, List.append_assoc]
  congr 2
  · split <;> rfl
  congr 1
  · split <;> rfl
  · simp only [beq_iff_eq, Bool.or_eq_true, decide_eq_true_eq]
    split <;> rfl

/-- Byte 0 of a canonical frame, bit by bit (R71, R74). -/
theorem syncOfFields_bits (c : Bool) (x : FrameFields) :
    (syncOfFields c x)[7] = false ∧ (syncOfFields c x)[6] = c ∧ (syncOfFields c x)[5] = x.rad1Valid
    ∧ (syncOfFields c x)[4] = x.rad2Valid ∧ (syncOfFields c x)[3] = x.shValid
    ∧ (syncOfFields c x)[2] = x.rad1Msb ∧ (syncOfFields c x)[1] = x.rad2Msb
    ∧ (syncOfFields c x)[0] = x.shMsb := by
  have h : ∀ c u w y p q r : Bool,
      let b := maskIf c cont ||| maskIf u rad1Valid ||| maskIf w rad2Valid ||| maskIf y shValid
        ||| maskIf p rad1Msb ||| maskIf q rad2Msb ||| maskIf r shMsb
      b[7] = false ∧ b[6] = c ∧ b[5] = u ∧ b[4] = w ∧ b[3] = y ∧ b[2] = p ∧ b[1] = q ∧ b[0] = r := by
    decide
  exact h _ _ _ _ _ _ _

theorem joinDatum_mark (c : Bool) (d : BitVec 7) :
    joinDatum c (mark ||| d.setWidth 8) = BitVec.ofBool c ++ d := by
  cases c <;> revert d <;> decide

/-- The events of a canonical frame, by its fields. -/
theorem frameEvents_canonical (c : Bool) (x : FrameFields) (p : Nat) :
    frameEvents (canonicalFrame c x).sync (canonicalFrame c x).rad1 (canonicalFrame c x).rad2
      (canonicalFrame c x).shared p = fieldEvents x p := by
  obtain ⟨_, _, h5, h4, h3, h2, h1, h0⟩ := syncOfFields_bits c x
  simp only [frameEvents, fieldEvents, canonicalFrame, h5, h4, h3, h2, h1, h0, joinDatum_mark]

/-! ### The assembler (R120) -/

theorem receive_partial (v : Byte) {s : State} (h : s.rxn.val < 3) :
    receive v s = { s with rxb := s.rxb.set s.rxn v, rxn := s.rxn + 1 } := by
  simp only [receive, h, ite_true]

theorem receive_fourth (v : Byte) {s : State} (h : s.rxn = 3) :
    receive v s = { s with
      rxb := s.rxb.set 3 v
      rxn := 0
      pos := dispatchPosition s.rxb[0] s.pos + 1
      events := s.events
        ++ frameEvents s.rxb[0] s.rxb[1] s.rxb[2] v (dispatchPosition s.rxb[0] s.pos) } := by
  have h3 : ¬ s.rxn.val < 3 := by simp [h]
  have hf : frameOfRxb (s.rxb.set s.rxn.val v) = ⟨s.rxb[0], s.rxb[1], s.rxb[2], v⟩ := by
    simp [frameOfRxb, h]
  simp only [receive, h3, ite_false, hf, dec_eq]
  simp [h]

theorem receive_partial_rxn (v : Byte) {s : State} (h : s.rxn.val < 3) :
    (receive v s).rxn.val = s.rxn.val + 1 := by
  rw [receive_partial v h]
  show (s.rxn + 1).val = _
  rw [Fin.val_add]
  show (s.rxn.val + 1) % 4 = _
  omega

/-- A byte that is not the first of its frame leaves the first where it is. -/
theorem receive_rxb_zero (v : Byte) {s : State} (h : s.rxn ≠ 0) : (receive v s).rxb[0] = s.rxb[0] := by
  have h0 : s.rxn.val ≠ 0 := fun e => h (Fin.ext e)
  by_cases h3 : s.rxn.val < 3
  · rw [receive_partial v h3]; simp [h0]
  · rw [receive_fourth v (Fin.ext (show s.rxn.val = 3 by omega))]; simp

/-- A whole frame into an empty assembler is one decoder step of it (R120, R121). -/
theorem receiveFrame_aligned (f : Frame) {s : State} (h : s.rxn = 0) :
    receiveFrame f s = { s with
      rxb := #v[f.sync, f.rad1, f.rad2, f.shared]
      rxn := 0
      pos := dispatchPosition f.sync s.pos + 1
      events := s.events
        ++ frameEvents f.sync f.rad1 f.rad2 f.shared (dispatchPosition f.sync s.pos) } := by
  obtain ⟨rxb, rxn, pos, a, b, c, d, e, ev, m, inp, fr⟩ := s
  subst h
  obtain ⟨⟨l⟩, hl⟩ := rxb
  match l, hl with
  | [w, x, y, z], _ =>
    simp only [receiveFrame]
    rw [receive_partial (v := f.sync) (show (0 : Fin 4).val < 3 by decide),
      receive_partial (v := f.rad1) (by simp only; exact Nat.one_lt_succ_succ 1),
      receive_partial (v := f.rad2) (by simp only; exact Nat.lt_succ_self 2),
      receive_fourth (v := f.shared) rfl]
    rfl

/-- Four bytes complete one frame, wherever the assembler was; its byte 0 says where it is dispatched (R57). -/
theorem receiveFrame_pos (f : Frame) (s : State) :
    (receiveFrame f s).pos
      = dispatchPosition (if s.rxn = 0 then f.sync else s.rxb[0]) s.pos + 1 := by
  have part (v : Byte) {s : State} (h : s.rxn.val < 3) : (receive v s).pos = s.pos := by
    rw [receive_partial v h]
  have full (v : Byte) {s : State} (h : s.rxn.val = 3) :
      (receive v s).pos = dispatchPosition s.rxb[0] s.pos + 1 ∧ (receive v s).rxn.val = 0 := by
    rw [receive_fourth v (Fin.ext h)]; exact ⟨rfl, rfl⟩
  by_cases h0 : s.rxn = 0
  · rw [receiveFrame_aligned f h0, if_pos h0]
  rw [if_neg h0]
  have hv : s.rxn.val ≠ 0 := fun e => h0 (Fin.ext e)
  simp only [receiveFrame]
  generalize ha : receive f.sync s = a
  generalize hb : receive f.rad1 a = b
  generalize hc : receive f.rad2 b = c
  have h : s.rxn.val = 1 ∨ s.rxn.val = 2 ∨ s.rxn.val = 3 := by omega
  rcases h with h | h | h
  · have a1 := part f.sync (s := s) (by omega)
    have a2 := receive_partial_rxn f.sync (s := s) (by omega)
    have a3 := receive_rxb_zero f.sync h0
    rw [ha] at a1 a2 a3
    have b1 := part f.rad1 (s := a) (by omega)
    have b2 := receive_partial_rxn f.rad1 (s := a) (by omega)
    have b3 := receive_rxb_zero f.rad1 (s := a) (fun e => by rw [e] at a2; omega)
    rw [hb] at b1 b2 b3
    obtain ⟨c1, c2⟩ := full f.rad2 (s := b) (by omega)
    rw [hc] at c1 c2
    rw [part f.shared (s := c) (by omega), c1, b3, b1, a3, a1]
  · have a1 := part f.sync (s := s) (by omega)
    have a2 := receive_partial_rxn f.sync (s := s) (by omega)
    have a3 := receive_rxb_zero f.sync h0
    rw [ha] at a1 a2 a3
    obtain ⟨b1, b2⟩ := full f.rad1 (s := a) (by omega)
    rw [hb] at b1 b2
    have c1 := part f.rad2 (s := b) (by omega)
    have c2 := receive_partial_rxn f.rad2 (s := b) (by omega)
    rw [hc] at c1 c2
    rw [part f.shared (s := c) (by omega), c1, b1, a3, a1]
  · obtain ⟨a1, a2⟩ := full f.sync (s := s) h
    rw [ha] at a1 a2
    have b1 := part f.rad1 (s := a) (by omega)
    have b2 := receive_partial_rxn f.rad1 (s := a) (by omega)
    rw [hb] at b1 b2
    have c1 := part f.rad2 (s := b) (by omega)
    have c2 := receive_partial_rxn f.rad2 (s := b) (by omega)
    rw [hc] at c1 c2
    rw [part f.shared (s := c) (by omega), c1, b1, a1]

/-- A canonical frame into an empty assembler, by its fields. -/
theorem receiveFrame_canonical (c : Bool) (x : FrameFields) {s : State} (h : s.rxn = 0) :
    let p := if c then s.pos else 0
    receiveFrame (canonicalFrame c x) s = { s with
      rxb := #v[syncOfFields c x, (canonicalFrame c x).rad1, (canonicalFrame c x).rad2,
        (canonicalFrame c x).shared]
      rxn := 0
      pos := p + 1
      events := s.events ++ fieldEvents x p } := by
  obtain ⟨h7, h6, _⟩ := syncOfFields_bits c x
  have hp : dispatchPosition (canonicalFrame c x).sync s.pos = if c then s.pos else 0 := by
    simp only [dispatchPosition, canonicalFrame, h7, h6]
    cases c <;> rfl
  rw [receiveFrame_aligned _ h, frameEvents_canonical, hp]
  rfl

/-! ### The framer (R140) -/

/-- Everything CTRL_BYTE can do: refused, or one of the four edges of R145. -/
theorem ctrlByte_cases (v : Byte) (s : State) :
    (s.seqInit = false ∧ ctrlByte v s = afterRefusal .seqUninit s)
    ∨ (s.seqInit = true ∧ s.cfInCmd = false ∧ v = 0#8 ∧
        ctrlByte v s = updateFrame 1 (fun f => f.putShared v false) s)
    ∨ (s.seqInit = true ∧ s.cfInCmd = false ∧ v ≠ 0#8 ∧
        ctrlByte v s = { updateFrame 1 (fun f => f.putShared v false) s with
          cfTerm := v ||| 0x80, cfInCmd := true })
    ∨ (s.seqInit = true ∧ s.cfInCmd = true ∧ v = s.cfTerm ∧
        ctrlByte v s = { updateFrame 1 (fun f => f.putShared v false) s with cfInCmd := false })
    ∨ (s.seqInit = true ∧ s.cfInCmd = true ∧ v ≠ s.cfTerm ∧
        ctrlByte v s = updateFrame 1 (fun f => f.putShared v true) s) := by
  rcases hs : s.seqInit with _ | _
  · exact .inl ⟨rfl, ifInit_uninit _ hs⟩
  have one (m : Bool) : setShared 1 v m s = updateFrame 1 (fun f => f.putShared v m) s :=
    setSlot_legal (i := 1) _ hs (by decide)
  have he : ctrlByte v s = if s.cfInCmd then ctrlInCommand v s else ctrlIdle v s := ifInit_ready _ hs
  rcases hc : s.cfInCmd with _ | _ <;> rw [hc] at he
  · by_cases hv : v = 0#8
    · exact .inr (.inl ⟨rfl, rfl, hv, by rw [he, ← one]; simp [ctrlIdle, hv]⟩)
    · refine .inr (.inr (.inl ⟨rfl, rfl, hv, ?_⟩))
      rw [he, ← one]; simp [ctrlIdle, hv, terminator, endMarker]
  · by_cases hv : v = s.cfTerm
    · refine .inr (.inr (.inr (.inl ⟨rfl, rfl, hv, ?_⟩)))
      rw [he, ← one]; simp [ctrlInCommand, ← hv]
    · refine .inr (.inr (.inr (.inr ⟨rfl, rfl, hv, ?_⟩)))
      rw [he, ← one]; simp [ctrlInCommand, hv]

/-! ### Every instruction -/

/-- What an instruction does to the state. -/
def effect (i : Instr) (s : State) : State :=
  match exec i s with
  | .next t => t
  | .fault _ => s
  | .refused _ => s

/-- Every instruction answers a next state. -/
theorem exec_eq_next (i : Instr) (s : State) : exec i s = .next (effect i s) := by
  cases i <;> rfl

theorem exec_eq_next_iff (i : Instr) (s t : State) : exec i s = .next t ↔ t = effect i s := by
  rw [exec_eq_next]
  constructor
  · intro h; cases h; rfl
  · intro h; rw [h]

@[simp] theorem execAll_nil (s : State) : execAll [] s = .next s := rfl

theorem execAll_cons (i : Instr) (is : List Instr) (s : State) :
    execAll (i :: is) s = execAll is (effect i s) := by
  simp only [execAll, exec_eq_next]

theorem execAll_append (is js : List Instr) (s t : State) (h : execAll is s = .next t) :
    execAll (is ++ js) s = execAll js t := by
  induction is generalizing s with
  | nil => cases h; rfl
  | cons i is ih =>
    rw [execAll_cons] at h
    rw [List.cons_append, execAll_cons, ih _ h]

end Sys2Proof.Machine
end

