-- ==== Sys2Proof/Laws/PerInstr.lean ====
section
/-! SUPPORT. A fact about every instruction as syntax, one lemma per constructor: the core operation of a
pseudo-operation is a core operation with equally legal operands (R88). -/

namespace Sys2Proof.Laws.CanonicalStable

open Sys2Proof

/-- The core operation an instruction stands for stands for itself, and is legal exactly when it is. -/
def Statement (i : Instr) : Prop :=
  i.canonical.canonical = i.canonical ∧ i.canonical.wellFormed = i.wellFormed

theorem reset : Statement .reset := ⟨rfl, rfl⟩
theorem rxByte (v : Byte) : Statement (.rxByte v) := ⟨rfl, rfl⟩
theorem seqInit : Statement .seqInit := ⟨rfl, rfl⟩
theorem setFlag (radio : Radio) (kind : FlagKind) : Statement (.setFlag radio kind) := ⟨rfl, rfl⟩
theorem setRadio (radio : Radio) (i : BitVec 3) (v : Byte) : Statement (.setRadio radio i v) := ⟨rfl, rfl⟩
theorem setShared (i : BitVec 3) (v : Byte) (m : Bool) : Statement (.setShared i v m) := ⟨rfl, rfl⟩
theorem frameCount : Statement .frameCount := ⟨rfl, rfl⟩
theorem ctrlByte (v : Byte) : Statement (.ctrlByte v) := ⟨rfl, rfl⟩
theorem seqFinish : Statement .seqFinish := ⟨rfl, rfl⟩
theorem seqSend : Statement .seqSend := ⟨rfl, rfl⟩
theorem rxFrame (b0 b1 b2 b3 : Byte) : Statement (.rxFrame b0 b1 b2 b3) := ⟨rfl, rfl⟩
theorem foldRad1 (v : Byte) : Statement (.foldRad1 v) := ⟨rfl, rfl⟩
theorem foldRad2 (v : Byte) : Statement (.foldRad2 v) := ⟨rfl, rfl⟩
theorem foldCtrl (v : Byte) : Statement (.foldCtrl v) := ⟨rfl, rfl⟩
theorem foldWk (v : Byte) : Statement (.foldWk v) := ⟨rfl, rfl⟩
theorem foldFsk1 (v : Byte) : Statement (.foldFsk1 v) := ⟨rfl, rfl⟩
theorem foldFsk2 (v : Byte) : Statement (.foldFsk2 v) := ⟨rfl, rfl⟩
theorem encodeRad1 (v : Byte) : Statement (.encodeRad1 v) := ⟨rfl, rfl⟩
theorem frameStart (x : FrameFields) : Statement (.frameStart x) := ⟨rfl, rfl⟩
theorem frameCont (x : FrameFields) : Statement (.frameCont x) := ⟨rfl, rfl⟩

end Sys2Proof.Laws.CanonicalStable
end

