-- ==== Sys2Proof/Laws/Setters.lean ====
section
/-! SUPPORT. What a setter does to the 20-byte sequence space, said once for each of the four kinds of slot;
that updates commute and repeat without effect; and what SEQ_SEND transmits. -/

namespace Sys2Proof.Machine

open Sys2Proof

/-! ### Reading after a frame was updated -/

theorem memRead_updateFrame (k i : Fin 5) (j : Fin 4) (g : Frame → Frame) (s : State) :
    memRead (updateFrame k g s) (4 * i.val + j.val)
      = if i = k then some ((g s.seqF[k]).byte j) else memRead s (4 * i.val + j.val) := by
  rw [memRead_seqAddr, memRead_seqAddr, updateFrame_frame]
  split <;> rfl

/-- An address of the space always holds a byte. -/
theorem memRead_map_const (s : State) {a : Nat} (h : a < 20) (c : Byte) :
    (memRead s a).map (fun _ => c) = some c := by
  simp [memRead, h]

/-- An update that maps the sync byte by `w`, byte `j` by `d`, and keeps the other two, says all there is to
say about the space. -/
theorem updateFrame_spec (k : Fin 5) (g : Frame → Frame) (s : State) (j : Fin 4) (w d : Byte → Byte)
    (h0 : ∀ f : Frame, (g f).byte 0 = w (f.byte 0)) (hj : ∀ f : Frame, (g f).byte j = d (f.byte j))
    (hl : ∀ (f : Frame) (l : Fin 4), l ≠ 0 → l ≠ j → (g f).byte l = f.byte l) :
    memRead (updateFrame k g s) (4 * k.val + j.val) = (memRead s (4 * k.val + j.val)).map d
    ∧ memRead (updateFrame k g s) (4 * k.val) = (memRead s (4 * k.val)).map w
    ∧ ∀ a, a ≠ 4 * k.val → a ≠ 4 * k.val + j.val → memRead (updateFrame k g s) a = memRead s a := by
  refine ⟨?_, ?_, ?_⟩
  · rw [memRead_updateFrame, memRead_seqAddr]; simp [hj]
  · have e := memRead_updateFrame k k 0 g s
    have e' := memRead_seqAddr s k 0
    simp only [Fin.val_zero, Nat.add_zero] at e e'
    rw [e, e']; simp [h0]
  · intro a ha1 ha2
    by_cases ha : a < 20
    · obtain ⟨i, l, rfl⟩ := exists_seqAddr ha
      rw [memRead_updateFrame]
      split
      · rename_i h
        subst h
        rw [memRead_seqAddr, hl]
        · intro h; subst h; simp at ha1
        · intro h; subst h; simp at ha2
      · rfl
    · rw [memRead_outside _ (by omega), memRead_outside _ (by omega)]

theorem msb_eq_bit (v : Byte) : v.msb = v[7] := by revert v; decide

theorem wireByte_mark (v : Byte) : (wireByte v)[7] = true := by revert v; decide

/-- SET_RADIO 1 on frame `k` (R102). -/
theorem putRadio1_spec (k : Fin 5) (v : Byte) (s : State) :
    memRead (updateFrame k (fun f => f.putRadio .radio1 v) s) (4 * k.val + 1)
      = (memRead s (4 * k.val + 1)).map (fun _ => (0x80 : Byte) ||| (v &&& 0x7F))
    ∧ memRead (updateFrame k (fun f => f.putRadio .radio1 v) s) (4 * k.val)
      = (memRead s (4 * k.val)).map (fun y : Byte => y ||| 0x20 ||| (if v[7] then 0x04 else 0x00))
    ∧ ∀ a, a ≠ 4 * k.val → a ≠ 4 * k.val + 1 →
      memRead (updateFrame k (fun f => f.putRadio .radio1 v) s) a = memRead s a :=
  updateFrame_spec k _ s 1 _ _
    (fun f => by
      simp only [Frame.putRadio, Frame.byte, radioSyncBits, maskIf, msb_eq_bit, BitVec.or_assoc]
      rfl)
    (fun _ => rfl)
    (fun f l h1 h2 => by
      match l with
      | 0 => exact absurd rfl h1
      | 1 => exact absurd rfl h2
      | 2 | 3 => rfl)

/-- SET_RADIO 2 on frame `k` (R102). -/
theorem putRadio2_spec (k : Fin 5) (v : Byte) (s : State) :
    memRead (updateFrame k (fun f => f.putRadio .radio2 v) s) (4 * k.val + 2)
      = (memRead s (4 * k.val + 2)).map (fun _ => (0x80 : Byte) ||| (v &&& 0x7F))
    ∧ memRead (updateFrame k (fun f => f.putRadio .radio2 v) s) (4 * k.val)
      = (memRead s (4 * k.val)).map (fun y : Byte => y ||| 0x10 ||| (if v[7] then 0x02 else 0x00))
    ∧ ∀ a, a ≠ 4 * k.val → a ≠ 4 * k.val + 2 →
      memRead (updateFrame k (fun f => f.putRadio .radio2 v) s) a = memRead s a :=
  updateFrame_spec k _ s 2 _ _
    (fun f => by
      simp only [Frame.putRadio, Frame.byte, radioSyncBits, maskIf, msb_eq_bit, BitVec.or_assoc]
      rfl)
    (fun _ => rfl)
    (fun f l h1 h2 => by
      match l with
      | 0 => exact absurd rfl h1
      | 2 => exact absurd rfl h2
      | 1 | 3 => rfl)

/-- SET_SHARED on frame `k` (R103). -/
theorem putShared_spec (k : Fin 5) (v : Byte) (m : Bool) (s : State) :
    memRead (updateFrame k (fun f => f.putShared v m) s) (4 * k.val + 3)
      = (memRead s (4 * k.val + 3)).map (fun _ => (0x80 : Byte) ||| (v &&& 0x7F))
    ∧ memRead (updateFrame k (fun f => f.putShared v m) s) (4 * k.val)
      = (memRead s (4 * k.val)).map
          (fun y : Byte => y ||| (if v[7] then 0x01 else 0x00) ||| (if m then 0x08 else 0x00))
    ∧ ∀ a, a ≠ 4 * k.val → a ≠ 4 * k.val + 3 →
      memRead (updateFrame k (fun f => f.putShared v m) s) a = memRead s a :=
  updateFrame_spec k _ s 3 _ _
    (fun f => by
      simp only [Frame.putShared, Frame.byte, sharedSyncBits, maskIf, msb_eq_bit, BitVec.or_assoc]
      rfl)
    (fun _ => rfl)
    (fun f l h1 h2 => by
      match l with
      | 0 => exact absurd rfl h1
      | 3 => exact absurd rfl h2
      | 1 | 2 => rfl)

/-- A flag mask ORed into frame `k` (R101). -/
theorem orFlags_spec (k : Fin 5) (mk : Byte) (s : State) :
    memRead (updateFrame k (fun f => f.orFlags mk) s) (4 * k.val + 3)
      = (memRead s (4 * k.val + 3)).map (fun b : Byte => b ||| (mk &&& 0x7F))
    ∧ memRead (updateFrame k (fun f => f.orFlags mk) s) (4 * k.val)
      = (memRead s (4 * k.val)).map (fun y : Byte => y ||| (if mk[7] then 0x01 else 0x00))
    ∧ ∀ a, a ≠ 4 * k.val → a ≠ 4 * k.val + 3 →
      memRead (updateFrame k (fun f => f.orFlags mk) s) a = memRead s a :=
  updateFrame_spec k _ s 3 _ _
    (fun f => by simp only [Frame.orFlags, Frame.byte, maskIf, msb_eq_bit]; rfl)
    (fun _ => rfl)
    (fun f l h1 h2 => by
      match l with
      | 0 => exact absurd rfl h1
      | 3 => exact absurd rfl h2
      | 1 | 2 => rfl)

/-! ### Updates of two frames, and of one twice -/

/-- Updates of two different frames commute. -/
theorem updateFrame_updateFrame_of_ne {k l : Fin 5} (h : k ≠ l) (g g' : Frame → Frame) (s : State) :
    updateFrame k g (updateFrame l g' s) = updateFrame l g' (updateFrame k g s) := by
  have h1 : ¬ l.val = k.val := fun e => h (Fin.ext e.symm)
  have h2 : ¬ k.val = l.val := fun e => h (Fin.ext e)
  simp only [updateFrame]
  rw [State.mk.injEq]
  refine ⟨rfl, rfl, rfl, rfl, rfl, rfl, ?_, ?_, rfl, rfl, rfl, rfl⟩
  · simp only [Fin.getElem_fin, Vector.getElem_set_ne, ne_eq, h1, h2, not_false_eq_true]
    exact Vector.set_comm _ _ h1
  · apply Fin.ext; simp only [raisedCount_val]; omega

/-- Two updates of one frame are the update by their composition. -/
theorem updateFrame_updateFrame (k : Fin 5) (g g' : Frame → Frame) (s : State) :
    updateFrame k g (updateFrame k g' s) = updateFrame k (fun f => g (g' f)) s := by
  simp only [updateFrame]
  rw [State.mk.injEq]
  refine ⟨rfl, rfl, rfl, rfl, rfl, rfl, ?_, ?_, rfl, rfl, rfl, rfl⟩
  · simp
  · apply Fin.ext; simp only [raisedCount_val]; omega

theorem putRadio_putRadio (r : Radio) (v : Byte) (f : Frame) :
    (f.putRadio r v).putRadio r v = f.putRadio r v := by
  cases r <;> simp [Frame.putRadio, BitVec.or_assoc]

theorem putShared_putShared (v : Byte) (m : Bool) (f : Frame) :
    (f.putShared v m).putShared v m = f.putShared v m := by
  simp [Frame.putShared, BitVec.or_assoc]

/-- Two masks ORed in are their OR ORed in (R106). -/
theorem orFlags_orFlags (a b : Byte) (f : Frame) : (f.orFlags a).orFlags b = f.orFlags (a ||| b) := by
  have hm : maskIf (a ||| b).msb shMsb = maskIf a.msb shMsb ||| maskIf b.msb shMsb := by
    rw [BitVec.msb_or]; cases a.msb <;> cases b.msb <;> rfl
  simp only [Frame.orFlags, hm, BitVec.or_assoc]
  congr 2
  rw [← BitVec.and_or_distrib_right]

/-! ### What SEQ_SEND transmits (R157) -/

/-- The five frames by name. -/
theorem exists_frames (s : State) : ∃ f0 f1 f2 f3 f4 : Frame, s.seqF = #v[f0, f1, f2, f3, f4] := by
  obtain ⟨rxb, rxn, pos, a, b, c, ⟨⟨l⟩, hl⟩, e, ev, m, inp, fr⟩ := s
  match l, hl with
  | [f0, f1, f2, f3, f4], _ => exact ⟨f0, f1, f2, f3, f4, rfl⟩

/-- The burst is the bytes at addresses 0 to `4 * COUNT - 1`. -/
theorem burst_spec (s : State) :
    (burst s).length = 4 * s.seqCount.val
      ∧ ∀ a, a < 4 * s.seqCount.val → (burst s)[a]? = memRead s a := by
  obtain ⟨f0, f1, f2, f3, f4, h⟩ := exists_frames s
  have hm : ∀ a, a < 20 →
      memRead s a = (f0.bytes ++ f1.bytes ++ f2.bytes ++ f3.bytes ++ f4.bytes)[a]? := by
    intro a ha
    obtain ⟨i, j, rfl⟩ := exists_seqAddr ha
    rw [memRead_seqAddr, h]
    match i, j with
    | 0, 0 | 0, 1 | 0, 2 | 0, 3 | 1, 0 | 1, 1 | 1, 2 | 1, 3 | 2, 0 | 2, 1 | 2, 2 | 2, 3
    | 3, 0 | 3, 1 | 3, 2 | 3, 3 | 4, 0 | 4, 1 | 4, 2 | 4, 3 => rfl
  have hb : burst s
      = (f0.bytes ++ f1.bytes ++ f2.bytes ++ f3.bytes ++ f4.bytes).take (4 * s.seqCount.val) := by
    simp only [burst, h]
    match s.seqCount with
    | 0 | 1 | 2 | 3 | 4 | 5 => rfl
  rw [hb]
  refine ⟨by simp [Frame.bytes]; omega, fun a ha => ?_⟩
  rw [hm a (by omega), List.getElem?_take_of_lt ha]

end Sys2Proof.Machine
end

