-- ==== Sys2Proof/Tests/Slice0.lean ====
section
/-! SUPPORT. The model's own tests. Expected results are those of spec/95_test_vectors.md (the vector is
named) or written out by hand from the encoding table of spec/30_encoding.md R85 and R74; then, for each
obligation that has hypotheses, a concrete state and operands that meet them. -/

namespace Sys2Proof.Tests

open Sys2Proof Sys2Proof.Machine

/-! ### Helpers -/

/-- The state a step of one 16-bit word leaves. -/
def doWord (w : Nat) (s : State) : State :=
  match step (s.withFetchWord 16 w) with
  | .next t => t
  | .fault _ => s
  | .refused _ => s

/-- What one instruction leaves. -/
def run (i : Instr) (s : State) : State :=
  match exec i s with
  | .next t => t
  | .fault _ => s
  | .refused _ => s

/-- Power-up, then SEQ_INIT. -/
def ready : State := initSequence State.reset

/-- Power-up with the decoder at a position. -/
def atPos (p : Nat) : State := { State.reset with pos := p }

/-- Power-up with three bytes of a frame assembled, at a position. -/
def threeBytes (y : Byte) (p : Nat) : State :=
  { State.reset with rxb := #v[y, 0x80, 0x80, 0x00], rxn := 3, pos := p }

/-- A sequence, the framer InCommand with terminator 0x85 (vector S5). -/
def inCommand : State := { ready with cfInCmd := true, cfTerm := 0x85 }

/-- The sequence of vector V134: Winkey byte 0x42, so three frames. -/
def threeFrames : State := run (.foldWk 0x42) ready

/-! ### Well-formedness: each check refuses an ill-formed term -/

theorem test_wellFormed_setRadio_index : (Instr.setRadio .radio1 5 0x11).wellFormed = false := by decide
theorem test_wellFormed_setShared_index : (Instr.setShared 5 0x11 true).wellFormed = false := by decide
theorem test_wellFormed_last_index :
    (Instr.setRadio .radio2 4 0xAA).wellFormed = true ∧ (Instr.setShared 4 0xB1 true).wellFormed = true := by
  decide

/-! ### Decoding: words written out from R85, R88 and R74 -/

theorem test_decode_reset : decodeTableWord 16 0b0000000000000000 = some .reset := by decide
theorem test_decode_rxByte : decodeTableWord 16 0b0001000001000001 = some (.rxByte 0x41) := by decide
theorem test_decode_seqInit : decodeTableWord 16 0b0010000000000000 = some .seqInit := by decide
theorem test_decode_setFlag :
    decodeTableWord 16 0b0011100100000000 = some (.setFlag .radio2 .ptt)
    ∧ decodeTableWord 16 0b0011001000000000 = some (.setFlag .radio1 .fskext) := by decide
theorem test_decode_setRadio :
    decodeTableWord 16 0b0100110010101010 = some (.setRadio .radio2 4 0xAA)
    ∧ decodeTableWord 16 0b0100010100010001 = some (.setRadio .radio1 5 0x11) := by decide
theorem test_decode_setShared :
    decodeTableWord 16 0b0101101001000010 = some (.setShared 2 0x42 true)
    ∧ decodeTableWord 16 0b0101000110000101 = some (.setShared 1 0x85 false) := by decide
theorem test_decode_frameCount : decodeTableWord 16 0b0110000000000000 = some .frameCount := by decide
theorem test_decode_ctrlByte : decodeTableWord 16 0b0111000000000101 = some (.ctrlByte 0x05) := by decide
theorem test_decode_seqFinish : decodeTableWord 16 0b1000000000000000 = some .seqFinish := by decide
theorem test_decode_seqSend : decodeTableWord 16 0b1001000000000000 = some .seqSend := by decide

/-- The words of the folds are those of the core operation (R89). -/
theorem test_decode_folds :
    decodeTableWord 16 0b0100000001000001 = some (Instr.foldRad1 0x41).canonical
    ∧ decodeTableWord 16 0b0100100011000010 = some (Instr.foldRad2 0xC2).canonical
    ∧ decodeTableWord 16 0b0111000000000000 = some (Instr.foldCtrl 0x00).canonical
    ∧ decodeTableWord 16 0b0101101001010111 = some (Instr.foldWk 0x57).canonical
    ∧ decodeTableWord 16 0b0101101100110001 = some (Instr.foldFsk1 0x31).canonical
    ∧ decodeTableWord 16 0b0101110010110010 = some (Instr.foldFsk2 0xB2).canonical := by decide

/-- RX_FRAME 08 80 80 85, first word in the low bits (log 13). -/
theorem test_decode_rxFrame :
    decodeTableWord 64 0x1085108010801008 = some (.rxFrame 0x08 0x80 0x80 0x85) := by decide

/-- ENCODE_RAD1 41 with its first word in either half (log 13). -/
theorem test_decode_encodeRad1 :
    decodeTableWord 32 0x40412000 = some (.encodeRad1 0x41)
    ∧ decodeTableWord 32 0x20004041 = some (.encodeRad1 0x41) := by decide

/-- 28 C8 80 85 of program P1: byte 0 is 0 0 1 0 1 0 0 0 (R74). -/
theorem test_decode_frameStart :
    decodeTableWord 32 0b00101000110010001000000010000101
      = some (.frameStart ⟨true, false, true, false, false, false, 0x48, 0x00, 0x05⟩) := by decide

/-- 5A 80 8A C2 of program P1: CONT, RAD2_VALID, SH_VALID, RAD2_MSB (R74). -/
theorem test_decode_frameCont :
    decodeTableWord 32 0b01011010100000001000101011000010
      = some (.frameCont ⟨false, true, true, false, true, false, 0x00, 0x0A, 0x42⟩) := by decide

/-- Vectors V150 to V155: each of these words is no operation. -/
theorem test_decode_illegal : ∀ w ∈ [0xA000, 0xB123, 0xFFFF, 0x0001, 0x0800, 0x1141, 0x2001, 0x6100,
    0x8800, 0x9001, 0x3400, 0x3C00, 0x3001, 0x7805], decodeTableWord 16 w = none := by decide

/-- A frame that is not canonical is its four bytes (R74, R82; vector V94). -/
theorem test_decode_loose_frame :
    decodeItem (.frame 0xA8418041) = (some (.rxFrame 0xA8 0x41 0x80 0x41), []) := by decide

/-- A pair that is no pseudo-operation is its words one after another (log 2). -/
theorem test_decode_plain_pair :
    decodeItem (.pair 0x2000 0x5100) = (some .seqInit, [.cmd 0x5100]) := by decide

/-! ### One step of each instruction, from 95_test_vectors.md -/

/-- V170: what RESET leaves. -/
theorem test_reset :
    let t := doWord 0x0000 { inCommand with rxn := 2, pos := 6, seqCount := 3 }
    t.rxn = 0 ∧ t.pos = 0 ∧ t.cfInCmd = false ∧ t.seqInit = false ∧ t.events = [] :=
  ⟨rfl, rfl, rfl, rfl, rfl⟩

/-- V98, the second byte. -/
theorem test_rxByte_partial :
    let t := doWord 0x1080 { State.reset with rxb := #v[0x08, 0, 0, 0], rxn := 1 }
    t.rxn = 2 ∧ t.rxb = #v[0x08, 0x80, 0, 0] ∧ t.pos = 0 ∧ t.events = [] := by decide

/-- V84, the last byte: both radios, then the anomaly. -/
theorem test_rxByte_fourth :
    let t := doWord 0x10C3 { State.reset with rxb := #v[0x78, 0xC1, 0xC2, 0], rxn := 3, pos := 7 }
    t.rxn = 0 ∧ t.pos = 8 ∧ t.events = [.byte .rad1 0x41, .byte .rad2 0x42, .anomaly] := by decide

/-- V2. -/
theorem test_seqInit :
    let t := doWord 0x2000 threeFrames
    t.seqInit = true ∧ t.seqCount = 0 ∧ t.seqF.toList = ⟨0x08, 0x80, 0x80, 0x80⟩ ::
      List.replicate 4 ⟨0x40, 0x80, 0x80, 0x80⟩ ∧ t.events = [] := by decide

/-- V57, V61, for the masks 0x80 and 0x04 of the configuration TC0. -/
theorem test_setFlag_masks :
    (putFlag 0x80 ready).seqF[0] = ⟨0x09, 0x80, 0x80, 0x80⟩
    ∧ (putFlag 0x04 (run (.setShared 0 0x12 false) ready)).seqF[0] = ⟨0x08, 0x80, 0x80, 0x96⟩
    ∧ (putFlag 0x80 ready).seqCount = 1 := by decide

/-- V63. -/
theorem test_setFlag_uninit : (doWord 0x3000 State.reset).events = [.refused .seqUninit] := by decide

/-- V21, the second radio in the last frame. -/
theorem test_setRadio :
    let t := doWord 0x4CAA ready
    t.seqF[4] = ⟨0x52, 0x80, 0xAA, 0x80⟩ ∧ t.seqF[0] = ⟨0x08, 0x80, 0x80, 0x80⟩ ∧ t.seqCount = 5 := by
  decide

/-- V156, V157: SeqUninit comes before BadFrameIndex. -/
theorem test_setRadio_refused :
    (doWord 0x4541 State.reset).events = [.refused .seqUninit]
    ∧ (doWord 0x4541 ready).events = [.refused .badFrameIndex]
    ∧ (doWord 0x4541 ready).seqCount = 0 := by decide

/-- V43's last write, V40: SH_VALID stays set though m = 0. -/
theorem test_setShared :
    (doWord 0x5A99 { ready with seqF := ready.seqF.set 2 ⟨0x72, 0xC1, 0xC2, 0x80⟩ }).seqF[2]
      = ⟨0x7B, 0xC1, 0xC2, 0x99⟩
    ∧ (doWord 0x5012 ready).seqF[0] = ⟨0x08, 0x80, 0x80, 0x92⟩ := by decide

/-- V44. -/
theorem test_setShared_refused : (doWord 0x5D11 ready).events = [.refused .badFrameIndex] := by decide

/-- V3, V45. -/
theorem test_frameCount :
    (doWord 0x6000 ready).events = [.count 0]
    ∧ (doWord 0x6000 { ready with seqCount := 5 }).events = [.count 5] := by decide

/-- S5's first byte, S6. -/
theorem test_ctrlByte_idle :
    (doWord 0x7005 ready).seqF[1] = ⟨0x40, 0x80, 0x80, 0x85⟩
    ∧ (doWord 0x7005 ready).cfInCmd = true ∧ (doWord 0x7005 ready).cfTerm = 0x85
    ∧ (doWord 0x7000 ready).seqF[1] = ⟨0x40, 0x80, 0x80, 0x80⟩
    ∧ (doWord 0x7000 ready).cfInCmd = false ∧ (doWord 0x7000 ready).seqCount = 2 := by decide

/-- S5's second and last bytes. -/
theorem test_ctrlByte_inCommand :
    (doWord 0x7010 inCommand).seqF[1] = ⟨0x48, 0x80, 0x80, 0x90⟩
    ∧ (doWord 0x7010 inCommand).cfInCmd = true
    ∧ (doWord 0x7085 inCommand).seqF[1] = ⟨0x41, 0x80, 0x80, 0x85⟩
    ∧ (doWord 0x7085 inCommand).cfInCmd = false := by decide

/-- V130: an idle cycle gets no RTS. -/
theorem test_seqFinish_empty : (doWord 0x8000 ready).seqF[0] = ⟨0x08, 0x80, 0x80, 0x80⟩ := by decide

/-- V138. -/
theorem test_seqFinish_uninit : (doWord 0x8000 State.reset).events = [.refused .seqUninit] := by decide

/-- V135, S3's frames. -/
theorem test_seqSend :
    (doWord 0x9000 threeFrames).events
      = [.tx [0x08, 0x80, 0x80, 0x80, 0x40, 0x80, 0x80, 0x80, 0x48, 0x80, 0x80, 0xC2]]
    ∧ (doWord 0x9000 threeFrames).seqCount = 3 ∧ (doWord 0x9000 ready).events = [] := by decide

/-- V80, V92: the frame is dispatched at 0 from any position. -/
theorem test_rxFrame_resync :
    (run (.rxFrame 0x08 0x80 0x80 0x85) (atPos 3)).events = [.status 0x05]
    ∧ (run (.rxFrame 0x09 0x80 0x80 0xFF) (atPos 2)).events = [.status 0xFF]
    ∧ (run (.rxFrame 0x09 0x80 0x80 0xFF) (atPos 2)).pos = 1 := by decide

/-- V85, V87, V94: the control slot, its zero byte, and bit 7 of byte 0 blocking a resynchronisation. -/
theorem test_rxFrame_slots :
    (run (.rxFrame 0x40 0x80 0x80 0x85) (atPos 1)).events = [.byte .control 0x05]
    ∧ (run (.rxFrame 0x48 0x80 0x80 0x80) (atPos 1)).events = []
    ∧ (run (.rxFrame 0xA8 0x41 0x80 0x41) (atPos 5)).events = [.byte .rad1 0x41, .anomaly]
    ∧ (run (.rxFrame 0xA8 0x41 0x80 0x41) (atPos 5)).pos = 6 := by decide

/-- V131 before SEQ_FINISH, V16. -/
theorem test_foldRad :
    (run (.foldRad1 0x41) ready).seqF[0] = ⟨0x28, 0xC1, 0x80, 0x80⟩
    ∧ (run (.foldRad2 0x80) ready).seqF[0] = ⟨0x1A, 0x80, 0x80, 0x80⟩ := by decide

/-- V115's first byte. -/
theorem test_foldCtrl :
    (run (.foldCtrl 0x01) ready).seqF[1] = ⟨0x40, 0x80, 0x80, 0x81⟩
    ∧ (run (.foldCtrl 0x01) ready).cfTerm = 0x81 := by decide

/-- V137's bytes of frames 2, 3 and 4, V136's count. -/
theorem test_foldShared :
    (run (.foldWk 0x57) ready).seqF[2] = ⟨0x48, 0x80, 0x80, 0xD7⟩
    ∧ (run (.foldFsk1 0x31) ready).seqF[3] = ⟨0x48, 0x80, 0x80, 0xB1⟩
    ∧ (run (.foldFsk2 0xB2) ready).seqF[4] = ⟨0x49, 0x80, 0x80, 0xB2⟩
    ∧ (run (.foldFsk2 0xB2) ready).seqCount = 5 := by decide

/-- S1, two of its rows. -/
theorem test_encodeRad1 :
    (run (.encodeRad1 0x80) threeFrames).seqF[0] = ⟨0x2C, 0x80, 0x80, 0x80⟩
    ∧ (run (.encodeRad1 0xFF) threeFrames).seqF[0] = ⟨0x2C, 0xFF, 0x80, 0x80⟩
    ∧ (run (.encodeRad1 0xFF) threeFrames).seqCount = 1 := by decide

/-- P1's first frame. -/
theorem test_frameStart :
    let t := run (.frameStart ⟨true, false, true, false, false, false, 0x48, 0x00, 0x05⟩) (atPos 3)
    t.events = [.byte .rad1 0x48, .status 0x05] ∧ t.pos = 1
      ∧ t.rxb = #v[0x28, 0xC8, 0x80, 0x85] := by decide

/-- P1's third frame. -/
theorem test_frameCont :
    let t := run (.frameCont ⟨false, true, true, false, true, false, 0x00, 0x0A, 0x42⟩) (atPos 2)
    t.events = [.byte .rad2 0x8A, .byte .winkey 0x42] ∧ t.pos = 3
      ∧ t.rxb = #v[0x5A, 0x80, 0x8A, 0xC2] := by decide

/-- V70, V72, V77: decode_frame. -/
theorem test_decodeFrame :
    decodeFrame ⟨0x2C, 0xFF, 0x80, 0x80⟩ false = ⟨0x2C, some 0xFF, none, some 0x00⟩
    ∧ decodeFrame ⟨0x40, 0x80, 0x80, 0x85⟩ true = ⟨0x40, none, none, some 0x05⟩
    ∧ decodeFrame ⟨0xFF, 0x00, 0x7F, 0x01⟩ false = ⟨0xFF, some 0x80, some 0xFF, some 0x81⟩ := by decide

/-- V158: IllegalCommand comes before SeqUninit; the rest of the state is what it was. -/
theorem test_illegal :
    (doWord 0xA000 State.reset).events = [.refused .illegalCommand]
    ∧ (doWord 0xA000 State.reset).refusalSeen = true ∧ (doWord 0xA000 ready).seqF = ready.seqF := by
  decide

/-- R192: the codes. -/
theorem test_codes :
    Event.anomaly.code = some 1 ∧ (Event.refused .seqUninit).code = some 2
    ∧ (Event.refused .badFrameIndex).code = some 3 ∧ (Event.refused .illegalCommand).code = some 4 := by
  decide

/-- R50: the sequence space read, written, and its end. -/
theorem test_memory :
    memRead threeFrames 11 = some 0xC2 ∧ memRead threeFrames 20 = none
    ∧ memRead (memWrite threeFrames 19 0x55) 19 = some 0x55
    ∧ (memWrite threeFrames 20 0x55).seqF = threeFrames.seqF := by decide

/-! ### Witnesses: every obligation with hypotheses has a state and operands that meet them -/

theorem witness_CommandWordsFollowTable :
    (∃ r ∈ cmdTable, (0x44AA : CmdWord) &&& r.mask = r.pat)
    ∧ (∀ r ∈ cmdTable, (0xA000 : CmdWord) &&& r.mask ≠ r.pat)
    ∧ (∀ r ∈ cmdTable, (0x3400 : CmdWord) &&& r.mask ≠ r.pat) := by decide

theorem witness_StepRunsDecodedInstruction :
    (ready.withFetchWord 16 0x4CAA).input = .cmd 0x4CAA :: []
    ∧ decodeItem (.cmd 0x4CAA) = (some (.setRadio .radio2 4 0xAA), [])
    ∧ decodeItem (.pair 0x2000 0x5100) = (some .seqInit, [.cmd 0x5100]) := by decide

theorem witness_IdleStepChangesNothing : State.reset.input = [] := rfl

theorem witness_IllegalWordsAreRefused :
    (State.reset.withFetchWord 16 0xA000).input = .cmd 0xA000 :: []
    ∧ (∀ r ∈ cmdTable, (0xA000 : CmdWord) &&& r.mask ≠ r.pat)
    ∧ (ready.withFetchWord 16 0x4541).input = .cmd 0x4541 :: []
    ∧ (ready.withFetchWord 16 0x5F11).input = .cmd 0x5F11 :: []
    ∧ (ready.withFetchWord 16 0x5F11).seqInit = true
    ∧ (0x4541 : CmdWord) &&& 0xF000 = 0x4000 ∧ 5 ≤ (((0x4541 : CmdWord) >>> 8) &&& 7).toNat
    ∧ (0x5F11 : CmdWord) &&& 0xF000 = 0x5000 ∧ 5 ≤ (((0x5F11 : CmdWord) >>> 8) &&& 7).toNat := by
  decide

theorem witness_EventsOnlyAppendedNeverFsk :
    ∃ t, step ({ threeBytes 0x48 2 with input := [.cmd 0x10C2] }) = .next t
      ∧ t.events = [.byte .winkey 0x42] := ⟨_, rfl, by decide⟩

theorem witness_RxByteAssemblesAndDecodes :
    State.reset.rxn.val < 3 ∧ ({ State.reset with rxn := 2 } : State).rxn.val < 3
    ∧ (threeBytes 0x08 4).rxn = 3 := by decide

theorem witness_RxFrameRunsDecoder : (atPos 3).rxn = 0 := rfl
theorem witness_StartFrameDispatchedAtZero : (atPos 3).rxn = 0 := rfl
theorem witness_ContFrameDispatchedAtPosition : (atPos 4).rxn = 0 := rfl

theorem witness_ControlSlotIgnoresValidBit :
    (atPos 1).rxn = 0 ∧ (atPos 1).pos = 1
    ∧ ¬ ((0x40 : Byte)[7] = false ∧ (0x40 : Byte)[6] = false)
    ∧ ¬ ((0x80 : Byte)[7] = false ∧ (0x80 : Byte)[6] = false) := by decide

theorem witness_AnomalyExactlyOnValidOverrun :
    (threeBytes 0x48 4).rxn = 3 ∧ (threeBytes 0x48 4).rxb[0][3] = true
    ∧ 4 ≤ dispatchPosition (threeBytes 0x48 4).rxb[0] (threeBytes 0x48 4).pos
    ∧ (threeBytes 0x48 3).rxn = 3
    ∧ ¬ 4 ≤ dispatchPosition (threeBytes 0x48 3).rxb[0] (threeBytes 0x48 3).pos
    ∧ isReceive .seqSend = false := by
  refine ⟨rfl, by decide, ?_, rfl, ?_, rfl⟩ <;> simp [threeBytes, dispatchPosition]

/-- A fall by RESET, by an aligned frame, and by a fourth byte; a frame into a started assembler, whose byte 0 is
RXB[0]; and the two ways of completing none. -/
theorem witness_PositionFallsOnlyByResync :
    (∃ t, exec .reset (atPos 4) = .next t ∧ t.pos < (atPos 4).pos)
    ∧ (∃ t, exec (.rxFrame 0x08 0x80 0x80 0x80) (atPos 4) = .next t ∧ t.pos < (atPos 4).pos
        ∧ completedSync (.rxFrame 0x08 0x80 0x80 0x80) (atPos 4) = some 0x08)
    ∧ (∃ t, exec (.rxByte 0x80) (threeBytes 0x3F 4) = .next t ∧ t.pos < (threeBytes 0x3F 4).pos
        ∧ completedSync (.rxByte 0x80) (threeBytes 0x3F 4) = some 0x3F)
    ∧ completedSync (.rxFrame 0x08 0x80 0x80 0x80) (threeBytes 0x48 4) = some 0x48
    ∧ (completedSync (.rxByte 0x08) (atPos 4) = none ∧ Instr.rxByte 0x08 ≠ .reset)
    ∧ (completedSync .seqSend (atPos 4) = none ∧ Instr.seqSend ≠ .reset) :=
  ⟨⟨_, rfl, by decide⟩, ⟨_, rfl, by decide, by decide⟩, ⟨_, rfl, by decide, by decide⟩, by decide,
    by decide, by decide⟩

theorem witness_FourFrameCyclesNeverAnomalous :
    (atPos 4).rxn = 0 ∧ [((⟨true, false, true, false, false, false, 0x48, 0x00, 0x05⟩ : FrameFields),
      (⟨false, false, true, false, false, false, 0x00, 0x00, 0x41⟩ : FrameFields),
      (⟨false, true, true, false, true, false, 0x00, 0x0A, 0x42⟩ : FrameFields),
      (⟨false, false, true, false, false, false, 0x00, 0x00, 0x43⟩ : FrameFields))] ≠ [] := by decide

theorem witness_SaturatedPositionIndistinguishable :
    PositionsAlike (atPos 4).pos 9 ∧ PositionsAlike (atPos 3).pos 3
    ∧ ∃ t, exec (.rxFrame 0x48 0x80 0x80 0xC3) (atPos 4) = .next t :=
  ⟨.inr ⟨by decide, by decide⟩, .inl rfl, _, rfl⟩

theorem witness_SetFlagOrsMaskIntoFlagsByte :
    ready.seqInit = true ∧ State.reset.seqInit = false := ⟨rfl, rfl⟩

theorem witness_SetRadioWritesSlot :
    ready.seqInit = true ∧ (0 : BitVec 3).toNat ≤ 4 ∧ (4 : BitVec 3).toNat ≤ 4
    ∧ 5 ≤ (5 : BitVec 3).toNat ∧ 5 ≤ (7 : BitVec 3).toNat ∧ State.reset.seqInit = false := by decide

theorem witness_SetSharedWritesSlot :
    ready.seqInit = true ∧ (0 : BitVec 3).toNat ≤ 4 ∧ (4 : BitVec 3).toNat ≤ 4
    ∧ 5 ≤ (5 : BitVec 3).toNat ∧ 5 ≤ (7 : BitVec 3).toNat ∧ State.reset.seqInit = false := by decide

theorem witness_FrameCountReturnsCount :
    ready.seqInit = true ∧ State.reset.seqInit = false := ⟨rfl, rfl⟩

theorem witness_SyncBitsAndCountNeverFall :
    (∃ t, exec (.setShared 0 0x12 false) ready = .next t)
    ∧ startsSequence (.setShared 0 0x12 false) = false
    ∧ ready.seqF[(0 : Fin 5)].sync.getLsbD 3 = true ∧ ready.seqF[(4 : Fin 5)].shared[7] = true :=
  ⟨⟨_, rfl⟩, rfl, by decide, by decide⟩

theorem witness_SeqInitFillsFrames :
    (1 : Nat) ≤ 1 ∧ (1 : Nat) ≤ 4 ∧ (4 : Nat) ≤ 4 ∧ (0 : Nat) ≤ 4 ∧ (1 : Nat) ≤ 3 ∧ (3 : Nat) ≤ 3
    ∧ memRead ready 4 = some 0x40 ∧ memRead ready 19 = some 0x80 := by decide

theorem witness_EncodeRad1GivesFrameZero : (4 : Nat) ≤ 4 ∧ (4 : Nat) < 20 ∧ (4 : Nat) ≤ 19 ∧ (19 : Nat) < 20 := by
  decide

theorem witness_SlotRoundTrip :
    (4 : BitVec 3).toNat = (4 : Fin 5).val ∧ (0 : BitVec 3).toNat = (0 : Fin 5).val := by decide

theorem witness_CountIsOnePlusHighestSlot :
    ∀ i ∈ [Instr.setShared 4 0x01 true, .setRadio .radio1 0 0x01, .setFlag .radio1 .rts],
      i.wellFormed = true ∧ (setterTarget i).isSome = true := by decide

theorem witness_BuildersAreIdempotent :
    ready.seqInit = true ∧ (Instr.setRadio .radio1 4 0x80).wellFormed = true
    ∧ (setterTarget (.setRadio .radio1 4 0x80)).isSome = true ∧ Instr.seqFinish.wellFormed = true := by
  decide

theorem witness_ControlByteFollowsFramerGraph :
    ready.seqInit = true ∧ ready.cfInCmd = false ∧ inCommand.seqInit = true
    ∧ inCommand.cfInCmd = true ∧ (0x85 : Byte) = inCommand.cfTerm ∧ (0x10 : Byte) ≠ inCommand.cfTerm
    ∧ (0x05 : Byte) ≠ 0 ∧ State.reset.seqInit = false := by decide

theorem witness_ControlByteWritesFrameOne :
    inCommand.seqInit = true ∧ inCommand.cfInCmd = true ∧ (0x10 : Byte) ≠ inCommand.cfTerm := by decide

theorem witness_FramerMovesOnlyOnControlBytes :
    (∃ t, exec (.setShared 1 0x05 false) ready = .next t)
    ∧ isControlByte (.setShared 1 0x05 false) = false ∧ Instr.setShared 1 0x05 false ≠ .reset :=
  ⟨⟨_, rfl⟩, rfl, by decide⟩

/-- The command of S5. -/
theorem witness_CommandOpensAndCloses :
    ready.cfInCmd = false ∧ (0x05 : Byte) ≠ 0
    ∧ ∀ b ∈ [(0x10 : Byte), 0x20], b ≠ (0x05 : Byte) ||| 0x80 := by decide

theorem witness_RadioFoldsWriteFrameZero :
    (∃ i v j valid msb, (i = Instr.foldRad1 v ∧ j = 1 ∧ valid = (0x20 : Byte) ∧ msb = (0x04 : Byte))
      ∨ (i = Instr.foldRad2 v ∧ j = 2 ∧ valid = (0x10 : Byte) ∧ msb = (0x02 : Byte)))
    ∧ ready.seqInit = true :=
  ⟨⟨.foldRad2 0xC2, 0xC2, 2, 0x10, 0x02, .inr ⟨rfl, rfl, rfl, rfl⟩⟩, rfl⟩

theorem witness_SharedFoldsWriteTheirFrame :
    (∃ i v k, (i = Instr.foldWk v ∧ k = 2) ∨ (i = Instr.foldFsk1 v ∧ k = 3)
      ∨ (i = Instr.foldFsk2 v ∧ k = 4)) ∧ ready.seqInit = true :=
  ⟨⟨.foldFsk2 0xB2, 0xB2, 4, .inr (.inr ⟨rfl, rfl⟩)⟩, rfl⟩

theorem witness_FoldsOfDifferentChannelsCommute :
    ready.seqInit = true ∧ (foldChannel (.foldRad1 0x41)).isSome = true
    ∧ (foldChannel (.foldCtrl 0x05)).isSome = true
    ∧ foldChannel (.foldRad1 0x41) ≠ foldChannel (.foldCtrl 0x05) := by decide

theorem witness_SeqFinishSetsRtsIfNonEmpty :
    threeFrames.seqInit = true ∧ threeFrames.seqCount ≠ 0 ∧ ready.seqInit = true
    ∧ ready.seqCount = 0 ∧ State.reset.seqInit = false := by decide

theorem witness_SeqSendTransmitsLeadingFrames :
    threeFrames.seqInit = true ∧ 11 < 4 * threeFrames.seqCount.val ∧ ready.seqCount = 0
    ∧ State.reset.seqInit = false := by decide

theorem witness_BurstsAreWholeFrames :
    ∃ t, exec .seqSend threeFrames = .next t ∧ t.events = threeFrames.events ++ [.tx (burst threeFrames)]
      ∧ Event.tx (burst threeFrames) ∈ [Event.tx (burst threeFrames)] :=
  ⟨_, rfl, by decide, .head _⟩

theorem ready_inv : SeqInv ready := by
  constructor <;> intro _ <;> decide

theorem threeFrames_inv : SeqInv threeFrames := by
  constructor <;> intro _ <;> decide

theorem witness_TransmittedFramesAreCanonical :
    SeqInv threeFrames ∧ ∃ t, exec .seqSend threeFrames = .next t
      ∧ t.events = threeFrames.events ++ [.tx (burst threeFrames)] :=
  ⟨threeFrames_inv, _, rfl, by decide⟩

theorem witness_SeqUninitExactlyBeforeInit :
    State.reset.seqInit = false ∧ needsSeq (.foldWk 0x42) = true
    ∧ ready.seqInit = true ∧ needsSeq (.rxByte 0x08) = false := by decide

theorem witness_StepKeepsSequenceInvariant :
    SeqInv threeFrames ∧ ∃ t, step (threeFrames.withFetchWord 16 0x4CAA) = .next t :=
  ⟨threeFrames_inv, _, rfl⟩

theorem witness_SequenceInvariantEstablished : ∃ t, exec .seqInit State.reset = .next t := ⟨_, rfl⟩

theorem witness_ReceiveAndBuildIndependent :
    isReceive (.rxFrame 0x08 0x80 0x80 0x80) = true ∧ isReceive .seqSend = false
    ∧ Instr.seqSend ≠ .reset := by decide

theorem witness_PartsKeepToTheirState :
    (∃ t, exec (.rxByte 0x08) ready = .next t) ∧ isReceive (.rxByte 0x08) = true
    ∧ (∃ t, exec (.ctrlByte 0x05) ready = .next t) ∧ isReceive (.ctrlByte 0x05) = false
    ∧ Instr.ctrlByte 0x05 ≠ .reset :=
  ⟨⟨_, rfl⟩, rfl, ⟨_, rfl⟩, rfl, by decide⟩

end Sys2Proof.Tests
end

/-! ### One step (R20, R21, R86) -/

section
namespace Sys2Proof.Machine

open Sys2Proof

theorem step_idle {s : State} (h : s.input = []) : step s = .next s := by
  rw [step, h]

theorem step_decoded {s : State} {item : Item} {rest left : List Item} {i : Instr}
    (h : s.input = item :: rest) (hd : decodeItem item = (some i, left)) :
    step s = exec i (s.afterFetch left rest) := by
  simp only [step, h, hd]

theorem step_illegal {s : State} {item : Item} {rest left : List Item}
    (h : s.input = item :: rest) (hd : decodeItem item = (none, left)) :
    step s = .next (illegalCommand (s.afterFetch left rest)) := by
  simp only [step, h, hd]

/-- Everything a step can do: nothing, or an instruction or a refusal on the state with the item taken. -/
theorem step_cases (s : State) :
    step s = .next s
      ∨ ∃ left rest, step s = .next (refuse .illegalCommand (s.afterFetch left rest))
        ∨ ∃ i, step s = .next (effect i (s.afterFetch left rest)) := by
  rcases h : s.input with _ | ⟨item, rest⟩
  · exact .inl (step_idle h)
  · rcases hd : decodeItem item with ⟨_ | i, left⟩
    · exact .inr ⟨left, rest, .inl (step_illegal h hd)⟩
    · exact .inr ⟨left, rest, .inr ⟨i, (step_decoded h hd).trans (exec_eq_next i _)⟩⟩

/-- To show `P` of the state a step leaves, show it of `s`, and of what a refusal and each instruction make
of `s` with the item taken. -/
theorem step_induction {P : State → Prop} {s t : State} (h : step s = .next t) (idle : P s)
    (refused : ∀ left rest, P (refuse .illegalCommand (s.afterFetch left rest)))
    (run : ∀ i left rest, P (effect i (s.afterFetch left rest))) : P t := by
  rcases step_cases s with e | ⟨left, rest, e | ⟨i, e⟩⟩ <;> cases h.symm.trans e
  · exact idle
  · exact refused left rest
  · exact run i left rest

end Sys2Proof.Machine
end

/-! ### What the receive instructions do (R120, R121) -/

section
namespace Sys2Proof.Machine

open Sys2Proof

/-- None of the events is a byte for FSK1, FSK2 or FLAGS (R126). -/
def NoFskByte (new : List Event) : Prop :=
  ∀ v, Event.byte .fsk1 v ∉ new ∧ Event.byte .fsk2 v ∉ new ∧ Event.byte .flags v ∉ new

theorem noFskByte_nil : NoFskByte [] := by simp [NoFskByte]

theorem NoFskByte.append {l m : List Event} (hl : NoFskByte l) (hm : NoFskByte m) :
    NoFskByte (l ++ m) := fun v => by
  obtain ⟨hl1, hl2, hl3⟩ := hl v
  obtain ⟨hm1, hm2, hm3⟩ := hm v
  simp [hl1, hl2, hl3, hm1, hm2, hm3]

/-- The decode schedule has no entry for FSK1 or FSK2, and its FLAGS entry says Status (R61, R123). -/
theorem noFskByte_sharedEvents (d : Byte) (p : Nat) : NoFskByte (sharedEvents d p) := by
  unfold sharedEvents
  split_ifs <;> simp [NoFskByte]

theorem noFskByte_frameEvents (y b1 b2 b3 : Byte) (p : Nat) :
    NoFskByte (frameEvents y b1 b2 b3 p) := by
  refine .append (.append ?_ ?_) ?_
  · split <;> simp [NoFskByte]
  · split <;> simp [NoFskByte]
  · split
    · exact noFskByte_sharedEvents _ p
    · exact noFskByte_nil

/-- `t` is `s` but for the receive side and events appended to the stream. -/
def Received (s t : State) : Prop :=
  ∃ (rxb : Vector Byte 4) (rxn : Fin 4) (pos : Nat) (new : List Event), NoFskByte new
    ∧ t = { s with rxb := rxb, rxn := rxn, pos := pos, events := s.events ++ new }

theorem Received.trans {s t u : State} (h : Received s t) (h' : Received t u) : Received s u := by
  obtain ⟨rxb, rxn, pos, new, hn, rfl⟩ := h
  obtain ⟨rxb', rxn', pos', new', hn', rfl⟩ := h'
  exact ⟨rxb', rxn', pos', new ++ new', hn.append hn', by simp⟩

theorem rxn_cases (s : State) : s.rxn.val < 3 ∨ s.rxn = 3 := by
  have : s.rxn = 3 ↔ s.rxn.val = 3 := Fin.ext_iff
  omega

theorem received_receive (v : Byte) (s : State) : Received s (receive v s) := by
  rcases rxn_cases s with h | h
  · exact ⟨_, _, s.pos, [], noFskByte_nil, by rw [receive_partial v h, List.append_nil]⟩
  · exact ⟨_, _, _, _, noFskByte_frameEvents _ _ _ _ _, receive_fourth v h⟩

theorem received_receiveFrame (f : Frame) (s : State) : Received s (receiveFrame f s) :=
  (received_receive f.sync s).trans <| (received_receive f.rad1 _).trans <|
    (received_receive f.rad2 _).trans (received_receive f.shared _)

theorem received_effect {i : Instr} (h : isReceive i = true) (s : State) : Received s (effect i s) := by
  cases i with
  | rxByte v => exact received_receive v s
  | rxFrame b0 b1 b2 b3 => exact received_receiveFrame ⟨b0, b1, b2, b3⟩ s
  | frameStart x => exact received_receiveFrame (canonicalFrame false x) s
  | frameCont x => exact received_receiveFrame (canonicalFrame true x) s
  | _ => cases h

end Sys2Proof.Machine
end

/-! ### What the instructions of the transmit side do (R100 to R107, R140, R151 to R157) -/

section
namespace Sys2Proof.Machine

open Sys2Proof

/-- The writes to a frame of the sequence: one of a radio slot, of the shared slot, or of flags. -/
inductive FrameWrite : (Frame → Frame) → Prop
  | radio (r : Radio) (v : Byte) : FrameWrite fun f => f.putRadio r v
  | shared (v : Byte) (m : Bool) : FrameWrite fun f => f.putShared v m
  | flags (mk : Byte) : FrameWrite fun f => f.orFlags mk

/-- The elementary moves the transmit side's instructions are made of. -/
inductive BuildMove : State → State → Prop
  | refusal (r : Reason) (s : State) : BuildMove s (afterRefusal r s)
  | start (s : State) : BuildMove s (initSequence s)
  | write {g : Frame → Frame} (hg : FrameWrite g) (k : Fin 5) (s : State) :
      BuildMove s (updateFrame k g s)
  | framer (inCmd : Bool) (term : Byte) (s : State) :
      BuildMove s { s with cfInCmd := inCmd, cfTerm := term }
  | count (s : State) : BuildMove s (s.append (.count s.seqCount))
  | send (s : State) : BuildMove s (s.append (.tx (burst s)))

/-- Any number of elementary moves. -/
abbrev BuildMoves : State → State → Prop := Relation.ReflTransGen BuildMove

theorem buildMoves_setSlot {g : Frame → Frame} (hg : FrameWrite g) (i : BitVec 3) (s : State) :
    BuildMoves s (setSlot i g s) := by
  rcases setSlot_cases i g s with ⟨k, _, _, e⟩ | ⟨r, e⟩ <;> rw [e]
  · exact .single (.write hg k s)
  · exact .single (.refusal r s)

theorem buildMoves_setRadio (r : Radio) (i : BitVec 3) (v : Byte) (s : State) :
    BuildMoves s (setRadio r i v s) := buildMoves_setSlot (.radio r v) i s

theorem buildMoves_setShared (i : BitVec 3) (v : Byte) (m : Bool) (s : State) :
    BuildMoves s (setShared i v m s) := buildMoves_setSlot (.shared v m) i s

theorem buildMoves_setFlag (radio : Radio) (kind : FlagKind) (s : State) :
    BuildMoves s (setFlag radio kind s) := by
  rcases setFlag_cases radio kind s with ⟨_, e⟩ | e <;> rw [e]
  · exact .single (.write (.flags _) 0 s)
  · exact .single (.refusal _ s)

theorem buildMoves_ifInit {f : State → State} {s : State} (h : BuildMoves s (f s)) :
    BuildMoves s (ifInit f s) := by
  rcases ifInit_cases f s with ⟨_, e⟩ | ⟨_, e⟩ <;> rw [e]
  · exact h
  · exact .single (.refusal _ s)

theorem buildMoves_ctrlByte (v : Byte) (s : State) : BuildMoves s (ctrlByte v s) := by
  have write (m : Bool) : BuildMove s (updateFrame 1 (fun f => f.putShared v m) s) :=
    .write (.shared v m) 1 s
  rcases ctrlByte_cases v s with
    ⟨_, e⟩ | ⟨_, _, _, e⟩ | ⟨_, _, _, e⟩ | ⟨_, _, _, e⟩ | ⟨_, _, _, e⟩ <;> rw [e]
  · exact .single (.refusal _ s)
  · exact .single (write false)
  · exact .tail (.single (write false)) (.framer true _ _)
  · exact .tail (.single (write false)) (.framer false _ _)
  · exact .single (write true)

theorem effect_frameCount (s : State) :
    effect .frameCount s = ifInit (fun s => s.append (.count s.seqCount)) s := rfl

theorem effect_seqFinish (s : State) :
    effect .seqFinish s = ifInit (fun s =>
      if s.seqCount = 0 then s else setFlag .radio2 .rts (setFlag .radio1 .rts s)) s := rfl

theorem effect_seqSend (s : State) :
    effect .seqSend s
      = ifInit (fun s => if s.seqCount = 0 then s else s.append (.tx (burst s))) s := rfl

/-- An instruction that neither receives nor resets is a run of elementary moves. -/
theorem buildMoves_effect {i : Instr} (hr : isReceive i = false) (hi : i ≠ .reset) (s : State) :
    BuildMoves s (effect i s) := by
  cases i with
  | reset => exact absurd rfl hi
  | rxByte | rxFrame | frameStart | frameCont => cases hr
  | seqInit => exact .single (.start s)
  | setFlag radio kind => exact buildMoves_setFlag radio kind s
  | setRadio r k v => exact buildMoves_setRadio r k v s
  | setShared k v m => exact buildMoves_setShared k v m s
  | frameCount =>
    rw [effect_frameCount]
    exact buildMoves_ifInit (.single (.count s))
  | ctrlByte v => exact buildMoves_ctrlByte v s
  | seqFinish =>
    rw [effect_seqFinish]
    refine buildMoves_ifInit ?_
    split
    · exact .refl
    · exact (buildMoves_setFlag .radio1 .rts s).trans (buildMoves_setFlag .radio2 .rts _)
  | seqSend =>
    rw [effect_seqSend]
    refine buildMoves_ifInit ?_
    split
    · exact .refl
    · exact .single (.send s)
  | foldRad1 v => exact buildMoves_setRadio .radio1 0 v s
  | foldRad2 v => exact buildMoves_setRadio .radio2 0 v s
  | foldCtrl v => exact buildMoves_ctrlByte v s
  | foldWk v => exact buildMoves_setShared 2 v true s
  | foldFsk1 v => exact buildMoves_setShared 3 v true s
  | foldFsk2 v => exact buildMoves_setShared 4 v true s
  | encodeRad1 v => exact .head (.start s) (buildMoves_setRadio .radio1 0 v _)

/-- The three kinds of instruction and all that each can do. -/
theorem effect_cases (i : Instr) (s : State) :
    Received s (effect i s) ∨ effect i s = resetBlock s ∨ BuildMoves s (effect i s) := by
  cases hr : isReceive i
  · by_cases hi : i = .reset
    · subst hi; exact .inr (.inl rfl)
    · exact .inr (.inr (buildMoves_effect hr hi s))
  · exact .inl (received_effect hr s)

end Sys2Proof.Machine
end

/-! ### Which part of the state an instruction leaves alone (R22, R171) -/

section
namespace Sys2Proof.Machine

open Sys2Proof

theorem Received.same {s t : State} (h : Received s t) :
    SameFramer s t ∧ SameSequence s t ∧ SameRun s t := by
  obtain ⟨rxb, rxn, pos, new, _, rfl⟩ := h
  exact ⟨⟨rfl, rfl⟩, ⟨rfl, rfl, rfl⟩, ⟨rfl, rfl, rfl⟩⟩

theorem BuildMove.sameReceive {s t : State} (h : BuildMove s t) : SameReceive s t := by
  cases h <;> exact ⟨rfl, rfl, rfl⟩

theorem BuildMoves.sameReceive {s t : State} (h : BuildMoves s t) : SameReceive s t := by
  induction h with
  | refl => exact ⟨rfl, rfl, rfl⟩
  | tail _ hm ih =>
    obtain ⟨hb, hn, hp⟩ := ih
    obtain ⟨hb', hn', hp'⟩ := hm.sameReceive
    exact ⟨hb'.trans hb, hn'.trans hn, hp'.trans hp⟩

end Sys2Proof.Machine
end

/-! ### The decoder cannot tell positions of 4 or more apart (R27, R123) -/

section
namespace Sys2Proof.Machine

open Sys2Proof

/-- The state at another cycle position. -/
def State.withPos (s : State) (q : Nat) : State := { s with pos := q }

theorem PositionsAlike.dispatchPosition {p q : Nat} (h : PositionsAlike p q) (y : Byte) :
    PositionsAlike (dispatchPosition y p) (dispatchPosition y q) := by
  unfold Machine.dispatchPosition
  split
  · exact .inl rfl
  · exact h

theorem PositionsAlike.succ {p q : Nat} (h : PositionsAlike p q) : PositionsAlike (p + 1) (q + 1) := by
  unfold PositionsAlike at *
  omega

/-- From position 4 on the decode schedule has no entry. -/
theorem frameEvents_four_le (y b1 b2 b3 : Byte) {p : Nat} (h : 4 ≤ p) :
    frameEvents y b1 b2 b3 p = frameEvents y b1 b2 b3 4 := by
  have h0 : p ≠ 0 := by omega
  have h1 : p ≠ 1 := by omega
  have h2 : p ≠ 2 := by omega
  have h3 : p ≠ 3 := by omega
  simp [frameEvents, h0, h1, h2, h3]

theorem PositionsAlike.frameEvents_eq {p q : Nat} (h : PositionsAlike p q) (y b1 b2 b3 : Byte) :
    frameEvents y b1 b2 b3 q = frameEvents y b1 b2 b3 p := by
  rcases h with rfl | ⟨hp, hq⟩
  · rfl
  · rw [frameEvents_four_le _ _ _ _ hp, frameEvents_four_le _ _ _ _ hq]

/-- From positions that are alike, `f` leaves the same state but for positions that are alike again. -/
def KeepsAlike (f : State → State) : Prop :=
  ∀ s q, PositionsAlike s.pos q →
    ∃ q', PositionsAlike (f s).pos q' ∧ f (s.withPos q) = (f s).withPos q'

theorem KeepsAlike.comp {f g : State → State} (hg : KeepsAlike g) (hf : KeepsAlike f) :
    KeepsAlike fun s => g (f s) := by
  intro s q h
  obtain ⟨q', h', e⟩ := hf s q h
  obtain ⟨q'', h'', e'⟩ := hg (f s) q' h'
  exact ⟨q'', h'', (congrArg g e).trans e'⟩

theorem keepsAlike_receive (v : Byte) : KeepsAlike (receive v) := by
  intro s q h
  rcases rxn_cases s with hn | hn
  · refine ⟨q, ?_, ?_⟩
    · rwa [receive_partial v hn]
    · rw [receive_partial v hn, receive_partial v (s := s.withPos q) hn]; rfl
  · have hd := h.dispatchPosition s.rxb[0]
    refine ⟨dispatchPosition s.rxb[0] q + 1, ?_, ?_⟩
    · rw [receive_fourth v hn]; exact hd.succ
    · rw [receive_fourth v hn, receive_fourth v (s := s.withPos q) hn, ← hd.frameEvents_eq]; rfl

theorem keepsAlike_receiveFrame (f : Frame) : KeepsAlike (receiveFrame f) :=
  (keepsAlike_receive f.shared).comp <| (keepsAlike_receive f.rad2).comp <|
    (keepsAlike_receive f.rad1).comp (keepsAlike_receive f.sync)

theorem ifInit_withPos {f : State → State} {s : State} {q : Nat}
    (hf : f (s.withPos q) = (f s).withPos q) : ifInit f (s.withPos q) = (ifInit f s).withPos q := by
  cases h : s.seqInit
  · rw [ifInit_uninit f h, ifInit_uninit f (s := s.withPos q) h]; rfl
  · rw [ifInit_ready f h, ifInit_ready f (s := s.withPos q) h, hf]

theorem setSlot_withPos (i : BitVec 3) (g : Frame → Frame) (s : State) (q : Nat) :
    setSlot i g (s.withPos q) = (setSlot i g s).withPos q := by
  refine ifInit_withPos ?_
  cases frameIndex i <;> rfl

theorem setRadio_withPos (r : Radio) (i : BitVec 3) (v : Byte) (s : State) (q : Nat) :
    setRadio r i v (s.withPos q) = (setRadio r i v s).withPos q := setSlot_withPos i _ s q

theorem setShared_withPos (i : BitVec 3) (v : Byte) (m : Bool) (s : State) (q : Nat) :
    setShared i v m (s.withPos q) = (setShared i v m s).withPos q := setSlot_withPos i _ s q

theorem setFlag_withPos (radio : Radio) (kind : FlagKind) (s : State) (q : Nat) :
    setFlag radio kind (s.withPos q) = (setFlag radio kind s).withPos q := ifInit_withPos rfl

theorem ctrlIdle_withPos (v : Byte) (s : State) (q : Nat) :
    ctrlIdle v (s.withPos q) = (ctrlIdle v s).withPos q := by
  simp only [ctrlIdle, setShared_withPos]
  split <;> rfl

theorem ctrlInCommand_withPos (v : Byte) (s : State) (q : Nat) :
    ctrlInCommand v (s.withPos q) = (ctrlInCommand v s).withPos q := by
  simp only [ctrlInCommand, setShared_withPos, show (s.withPos q).cfTerm = s.cfTerm from rfl]
  split <;> rfl

theorem ctrlByte_withPos (v : Byte) (s : State) (q : Nat) :
    ctrlByte v (s.withPos q) = (ctrlByte v s).withPos q := by
  refine ifInit_withPos ?_
  simp only [ctrlIdle_withPos, ctrlInCommand_withPos, show (s.withPos q).cfInCmd = s.cfInCmd from rfl]
  split <;> rfl

/-- An instruction that neither receives nor resets does not read the position. -/
theorem effect_withPos {i : Instr} (hr : isReceive i = false) (hi : i ≠ .reset) (s : State) (q : Nat) :
    effect i (s.withPos q) = (effect i s).withPos q := by
  cases i with
  | reset => exact absurd rfl hi
  | rxByte | rxFrame | frameStart | frameCont => cases hr
  | seqInit => rfl
  | setFlag radio kind => exact setFlag_withPos radio kind s q
  | setRadio r k v => exact setRadio_withPos r k v s q
  | setShared k v m => exact setShared_withPos k v m s q
  | frameCount =>
    rw [effect_frameCount, effect_frameCount]
    exact ifInit_withPos rfl
  | ctrlByte v => exact ctrlByte_withPos v s q
  | seqFinish =>
    rw [effect_seqFinish, effect_seqFinish]
    refine ifInit_withPos ?_
    simp only [setFlag_withPos, show (s.withPos q).seqCount = s.seqCount from rfl]
    split <;> rfl
  | seqSend =>
    rw [effect_seqSend, effect_seqSend]
    refine ifInit_withPos ?_
    simp only [show (s.withPos q).seqCount = s.seqCount from rfl]
    split <;> rfl
  | foldRad1 v => exact setRadio_withPos .radio1 0 v s q
  | foldRad2 v => exact setRadio_withPos .radio2 0 v s q
  | foldCtrl v => exact ctrlByte_withPos v s q
  | foldWk v => exact setShared_withPos 2 v true s q
  | foldFsk1 v => exact setShared_withPos 3 v true s q
  | foldFsk2 v => exact setShared_withPos 4 v true s q
  | encodeRad1 v => exact setRadio_withPos .radio1 0 v (initSequence s) q

theorem keepsAlike_effect (i : Instr) : KeepsAlike (effect i) := by
  cases hr : isReceive i
  · by_cases hi : i = .reset
    · subst hi
      exact fun s q _ => ⟨0, .inl rfl, rfl⟩
    · intro s q h
      obtain ⟨-, -, hp⟩ := (buildMoves_effect hr hi s).sameReceive
      exact ⟨q, by rwa [hp], effect_withPos hr hi s q⟩
  · cases i with
    | rxByte v => exact keepsAlike_receive v
    | rxFrame b0 b1 b2 b3 => exact keepsAlike_receiveFrame ⟨b0, b1, b2, b3⟩
    | frameStart x => exact keepsAlike_receiveFrame (canonicalFrame false x)
    | frameCont x => exact keepsAlike_receiveFrame (canonicalFrame true x)
    | _ => cases hr

/-- Settles O20: saturating the position is a simulation, instruction by instruction. -/
theorem saturatedPositionIndistinguishable : Obligations.SaturatedPositionIndistinguishable := by
  intro i s t q hq h
  obtain rfl := (exec_eq_next_iff i s t).mp h
  obtain ⟨q', hq', e⟩ := keepsAlike_effect i s q hq
  have he : exec i (s.withPos q) = .next ((effect i s).withPos q') := by rw [exec_eq_next, e]
  exact ⟨_, q', he, hq', rfl, rfl, rfl, rfl, ⟨rfl, rfl⟩, ⟨rfl, rfl, rfl⟩, ⟨rfl, rfl, rfl⟩⟩

end Sys2Proof.Machine
end

/-! ### The invariant of the sequence buffer (R37) -/

section
namespace Sys2Proof.Machine

open Sys2Proof

/-- Items 1 to 4 of R37 for frame `i` alone. -/
structure FrameInv (i : Fin 5) (f : Frame) : Prop where
  reserved : f.sync[7] = false
  cont : f.sync[6] = decide (i ≠ 0)
  rad1 : f.rad1[7] = true
  rad2 : f.rad2[7] = true
  shared : f.shared[7] = true
  flags : i = 0 → f.sync[3] = true

/-- The invariant, frame by frame. -/
theorem seqInv_iff (s : State) :
    SeqInv s ↔ (s.seqInit = true → ∀ i : Fin 5, FrameInv i s.seqF[i]
      ∧ (s.seqCount.val ≤ i.val → s.seqF[i] = initFrame i)) := by
  have hi (i : Fin 5) : initFrame i = ⟨if i = 0 then 0x08 else 0x40, 0x80, 0x80, 0x80⟩ := by
    unfold initFrame; split <;> rfl
  simp only [hi]
  constructor
  · intro ⟨hres, hcont, hmarks, hflags, hun⟩ h i
    obtain ⟨h1, h2, h3⟩ := hmarks h i
    exact ⟨⟨hres h i, hcont h i, h1, h2, h3, fun e => e ▸ hflags h⟩, hun h i⟩
  · intro hs
    exact ⟨fun h i => (hs h i).1.reserved, fun h i => (hs h i).1.cont,
      fun h i => ⟨(hs h i).1.rad1, (hs h i).1.rad2, (hs h i).1.shared⟩,
      fun h => (hs h 0).1.flags rfl, fun h i => (hs h i).2⟩

theorem SeqInv.of_uninit {s : State} (h : s.seqInit = false) : SeqInv s :=
  (seqInv_iff s).mpr fun h' => by simp [h] at h'

theorem SeqInv.congr {s t : State} (hs : SeqInv s) (h : SameSequence s t) : SeqInv t := by
  obtain ⟨hi, hf, hc⟩ := h
  rw [seqInv_iff] at *
  rwa [hi, hf, hc]

theorem frameInv_initFrame (i : Fin 5) : FrameInv i (initFrame i) := by
  constructor <;> revert i <;> decide

theorem seqInv_initSequence (s : State) : SeqInv (initSequence s) :=
  (seqInv_iff _).mpr fun _ i =>
    ⟨by rw [initSequence_frame]; exact frameInv_initFrame i, fun _ => initSequence_frame i s⟩

theorem radioSyncBits_high (r : Radio) (v : Byte) :
    (radioSyncBits r v)[7] = false ∧ (radioSyncBits r v)[6] = false := by
  cases r <;> revert v <;> decide

theorem sharedSyncBits_high (v : Byte) (m : Bool) :
    (sharedSyncBits v m)[7] = false ∧ (sharedSyncBits v m)[6] = false := by
  cases m <;> revert v <;> decide

theorem maskIf_shMsb_high (b : Bool) : (maskIf b shMsb)[7] = false ∧ (maskIf b shMsb)[6] = false := by
  cases b <;> decide

/-- Bits 5:0 ORed into the sync byte, and data whose marks are kept, keep a frame's invariant. -/
theorem FrameInv.or_sync {i : Fin 5} {f : Frame} (h : FrameInv i f) {w b1 b2 b3 : Byte}
    (hw : w[7] = false ∧ w[6] = false) (h1 : b1[7] = true) (h2 : b2[7] = true) (h3 : b3[7] = true) :
    FrameInv i ⟨f.sync ||| w, b1, b2, b3⟩ where
  reserved := by simp [h.reserved, hw]
  cont := by simp [h.cont, hw]
  rad1 := h1
  rad2 := h2
  shared := h3
  flags e := by simp [h.flags e]

/-- Every write ORs into the sync byte below CONT and keeps the marks (R106). -/
theorem FrameWrite.frameInv {g : Frame → Frame} (hg : FrameWrite g) {i : Fin 5} {f : Frame}
    (h : FrameInv i f) : FrameInv i (g f) := by
  cases hg with
  | radio r v =>
    cases r
    · exact h.or_sync (radioSyncBits_high .radio1 v) (wireByte_mark v) h.rad2 h.shared
    · exact h.or_sync (radioSyncBits_high .radio2 v) h.rad1 (wireByte_mark v) h.shared
  | shared v m => exact h.or_sync (sharedSyncBits_high v m) h.rad1 h.rad2 (wireByte_mark v)
  | flags mk =>
    exact h.or_sync (maskIf_shMsb_high mk.msb) h.rad1 h.rad2 (by simp [h.shared])

/-- A written frame lies below the raised count, so no untouched frame is written (R104). -/
theorem SeqInv.updateFrame {s : State} (hs : SeqInv s) {g : Frame → Frame} (hg : FrameWrite g)
    (k : Fin 5) : SeqInv (updateFrame k g s) := by
  rw [seqInv_iff] at *
  intro h i
  obtain ⟨hf, hun⟩ := hs h i
  rw [updateFrame_frame, updateFrame_seqCount, raisedCount_val]
  by_cases hik : i = k
  · subst hik
    rw [if_pos rfl]
    exact ⟨hg.frameInv hf, fun hle => by omega⟩
  · rw [if_neg hik]
    exact ⟨hf, fun hle => hun (by omega)⟩

theorem BuildMove.seqInv {s t : State} (h : BuildMove s t) (hs : SeqInv s) : SeqInv t := by
  cases h with
  | start => exact seqInv_initSequence s
  | write hg k => exact hs.updateFrame hg k
  | refusal | framer | count | send => exact hs.congr ⟨rfl, rfl, rfl⟩

theorem BuildMoves.seqInv {s t : State} (h : BuildMoves s t) (hs : SeqInv s) : SeqInv t := by
  induction h with
  | refl => exact hs
  | tail _ hm ih => exact hm.seqInv ih

theorem SeqInv.effect {s : State} (hs : SeqInv s) (i : Instr) : SeqInv (effect i s) := by
  rcases effect_cases i s with hr | e | hb
  · obtain ⟨-, hseq, -⟩ := hr.same
    exact hs.congr hseq
  · rw [e]
    exact .of_uninit (resetBlock_seqInit s)
  · exact hb.seqInv hs

/-- Settles O46: receiving leaves the sequence alone, RESET ends it, and every elementary move of the
transmit side keeps the invariant. -/
theorem stepKeepsSequenceInvariant : Obligations.StepKeepsSequenceInvariant := by
  intro s t hs h
  have taken (left rest : List Item) : SeqInv (s.afterFetch left rest) := hs.congr ⟨rfl, rfl, rfl⟩
  exact step_induction h hs (fun left rest => (taken left rest).congr ⟨rfl, rfl, rfl⟩)
    (fun i left rest => (taken left rest).effect i)

/-- Settles O47: at power-up no sequence is initialised, and SEQ_INIT writes the fillers. -/
theorem sequenceInvariantEstablished : Obligations.SequenceInvariantEstablished := by
  refine ⟨.of_uninit rfl, fun s t h => ?_⟩
  obtain rfl := (exec_eq_next_iff .seqInit s t).mp h
  exact seqInv_initSequence s

end Sys2Proof.Machine
end

/-! ### The event stream (R34, R126) -/

section
namespace Sys2Proof.Machine

open Sys2Proof

/-- The events of `t` are those of `s` and then some, none of them a byte for FSK1, FSK2 or FLAGS. -/
def Appends (s t : State) : Prop := ∃ new, t.events = s.events ++ new ∧ NoFskByte new

theorem Appends.of_eq {s t : State} (h : t.events = s.events) : Appends s t :=
  ⟨[], by rw [h, List.append_nil], noFskByte_nil⟩

theorem Appends.trans {s t u : State} (h : Appends s t) (h' : Appends t u) : Appends s u := by
  obtain ⟨new, e, hn⟩ := h
  obtain ⟨new', e', hn'⟩ := h'
  exact ⟨new ++ new', by rw [e', e, List.append_assoc], hn.append hn'⟩

theorem appends_refuse (r : Reason) (s : State) : Appends s (refuse r s) :=
  ⟨[.refused r], rfl, by simp [NoFskByte]⟩

theorem BuildMove.appends {s t : State} (h : BuildMove s t) : Appends s t := by
  cases h with
  | refusal r => exact appends_refuse r s
  | count | send => exact ⟨_, rfl, by simp [NoFskByte]⟩
  | start | write | framer => exact .of_eq rfl

theorem BuildMoves.appends {s t : State} (h : BuildMoves s t) : Appends s t := by
  induction h with
  | refl => exact .of_eq rfl
  | tail _ hm ih => exact ih.trans hm.appends

theorem appends_effect (i : Instr) (s : State) : Appends s (effect i s) := by
  rcases effect_cases i s with ⟨_, _, _, new, hn, e⟩ | e | hb
  · exact ⟨new, by rw [e], hn⟩
  · exact .of_eq (by rw [e, resetBlock_events])
  · exact hb.appends

/-- Settles O9: each step appends, and the decode schedule has no entry for FSK1 or FSK2. -/
theorem eventsOnlyAppendedNeverFsk : Obligations.EventsOnlyAppendedNeverFsk := by
  intro s t h
  have taken (left rest : List Item) : Appends s (s.afterFetch left rest) := .of_eq rfl
  exact step_induction (P := Appends s) h (.of_eq rfl)
    (fun left rest => (taken left rest).trans (appends_refuse _ _))
    (fun i left rest => (taken left rest).trans (appends_effect i _))

end Sys2Proof.Machine
end

/-! ### Frames and steps -/

section
namespace Sys2Proof.Machine

open Sys2Proof

/-- Settles O49: receiving touches only the receive side, the transmit side's moves never touch it. -/
theorem partsKeepToTheirState : Obligations.PartsKeepToTheirState := by
  intro i s t h
  obtain rfl := (exec_eq_next_iff i s t).mp h
  exact ⟨fun hr => (received_effect hr s).same,
    fun hr hi => (buildMoves_effect hr hi s).sameReceive⟩

/-- Settles O5: by the step's own case for an item that decodes. -/
theorem stepRunsDecodedInstruction : Obligations.StepRunsDecodedInstruction :=
  fun _ _ _ _ _ h hd => step_decoded h hd

/-- Settles O6: by the step's own case for an empty stream. -/
theorem idleStepChangesNothing : Obligations.IdleStepChangesNothing :=
  fun _ h => step_idle h

/-- Settles O8: none of the things a step can do is a fault or a refusal of the model. -/
theorem everyStepAnswersNext : Obligations.EveryStepAnswersNext := by
  intro s
  rcases step_cases s with e | ⟨_, _, e | ⟨_, e⟩⟩ <;> exact ⟨_, e⟩

end Sys2Proof.Machine
end

/-! ### Building twice (R60, R106) -/

section
namespace Sys2Proof.Machine

open Sys2Proof

/-- A write overwrites its datum and ORs bits in, so a second one finds nothing to do (R106). -/
theorem FrameWrite.idem {g : Frame → Frame} (hg : FrameWrite g) (f : Frame) : g (g f) = g f := by
  cases hg with
  | radio r v => exact putRadio_putRadio r v f
  | shared v m => exact putShared_putShared v m f
  | flags mk => exact (orFlags_orFlags mk mk f).trans (by rw [BitVec.or_self])

theorem FrameWrite.updateFrame_idem {g : Frame → Frame} (hg : FrameWrite g) (k : Fin 5) (s : State) :
    updateFrame k g (updateFrame k g s) = updateFrame k g s := by
  rw [updateFrame_updateFrame, funext hg.idem]

theorem raisedCount_ne_zero (c : Fin 6) (i : Fin 5) : raisedCount c i ≠ 0 := by
  rw [Fin.ne_iff_vne, raisedCount_val]
  simp

theorem setFlag_ready (radio : Radio) (kind : FlagKind) {s : State} (hs : s.seqInit = true) :
    setFlag radio kind s = updateFrame 0 (fun f => f.orFlags (Config.flagMask kind radio)) s :=
  ifInit_ready _ hs

theorem setFlag_idem (radio : Radio) (kind : FlagKind) {s : State} (hs : s.seqInit = true) :
    setFlag radio kind (setFlag radio kind s) = setFlag radio kind s := by
  simp only [setFlag_ready, hs, updateFrame_seqInit, (FrameWrite.flags _).updateFrame_idem]

theorem setSlot_idem {g : Frame → Frame} (hg : FrameWrite g) {i : BitVec 3} (hi : i.toNat ≤ 4)
    {s : State} (hs : s.seqInit = true) : setSlot i g (setSlot i g s) = setSlot i g s := by
  simp only [setSlot_legal g _ hi, hs, updateFrame_seqInit, hg.updateFrame_idem]

theorem setRadio_idem (r : Radio) {i : BitVec 3} (hi : i.toNat ≤ 4) (v : Byte) {s : State}
    (hs : s.seqInit = true) : setRadio r i v (setRadio r i v s) = setRadio r i v s :=
  setSlot_idem (.radio r v) hi hs

theorem setShared_idem {i : BitVec 3} (hi : i.toNat ≤ 4) (v : Byte) (m : Bool) {s : State}
    (hs : s.seqInit = true) : setShared i v m (setShared i v m s) = setShared i v m s :=
  setSlot_idem (.shared v m) hi hs

theorem effect_seqFinish_empty {s : State} (hs : s.seqInit = true) (hc : s.seqCount = 0) :
    effect .seqFinish s = s := by
  rw [effect_seqFinish, ifInit_ready _ hs, if_pos hc]

/-- On a sequence that is not empty SEQ_FINISH ORs the RTS masks of both radios in at once (R155). -/
theorem effect_seqFinish_nonempty {s : State} (hs : s.seqInit = true) (hc : s.seqCount ≠ 0) :
    effect .seqFinish s = updateFrame 0
      (fun f => f.orFlags (Config.flagMask .rts .radio1 ||| Config.flagMask .rts .radio2)) s := by
  rw [effect_seqFinish, ifInit_ready _ hs, if_neg hc]
  simp only [setFlag_ready, hs, updateFrame_seqInit, updateFrame_updateFrame, orFlags_orFlags]

theorem seqFinish_idem {s : State} (hs : s.seqInit = true) :
    effect .seqFinish (effect .seqFinish s) = effect .seqFinish s := by
  by_cases hc : s.seqCount = 0
  · rw [effect_seqFinish_empty hs hc, effect_seqFinish_empty hs hc]
  · rw [effect_seqFinish_nonempty hs hc, effect_seqFinish_nonempty,
      (FrameWrite.flags _).updateFrame_idem]
    · exact hs
    · exact raisedCount_ne_zero s.seqCount 0

theorem setter_idem {i : Instr} {s : State} (hs : s.seqInit = true) (hw : i.wellFormed = true)
    (ht : (setterTarget i).isSome = true) : effect i (effect i s) = effect i s := by
  cases i with
  | setFlag radio kind => exact setFlag_idem radio kind hs
  | setRadio r k v => exact setRadio_idem r (of_decide_eq_true hw) v hs
  | setShared k v m => exact setShared_idem (of_decide_eq_true hw) v m hs
  | foldRad1 v => exact setRadio_idem .radio1 (i := 0) (by decide) v hs
  | foldRad2 v => exact setRadio_idem .radio2 (i := 0) (by decide) v hs
  | foldWk v => exact setShared_idem (i := 2) (by decide) v true hs
  | foldFsk1 v => exact setShared_idem (i := 3) (by decide) v true hs
  | foldFsk2 v => exact setShared_idem (i := 4) (by decide) v true hs
  | _ => cases ht

/-- Settles O30: SEQ_INIT overwrites all it writes, and the frame writes that SEQ_FINISH and the setters
are made of are idempotent. -/
theorem buildersAreIdempotent : Obligations.BuildersAreIdempotent := by
  intro i s hs hw hi
  refine ⟨effect i s, exec_eq_next i s, ?_⟩
  rw [exec_eq_next]
  congr 1
  rcases hi with rfl | rfl | ht
  · rfl
  · exact seqFinish_idem hs
  · exact setter_idem hs hw ht

end Sys2Proof.Machine
end

/-! ### The bursts of a run (R58, R157) -/

section
namespace Sys2Proof.Machine

open Sys2Proof

/-- The burst an event transmits. -/
def Event.burst? : Event → Option (List Byte)
  | .tx bs => some bs
  | .byte _ _ | .status _ | .anomaly | .count _ | .refused _ => none

/-- The bursts transmitted so far, oldest first. -/
def State.bursts (s : State) : List (List Byte) := s.events.filterMap Event.burst?

theorem mem_bursts {l : List Event} {bs : List Byte} (h : Event.tx bs ∈ l) :
    bs ∈ l.filterMap Event.burst? := List.mem_filterMap.mpr ⟨_, h, rfl⟩

@[simp] theorem State.append_bursts (s : State) (e : Event) :
    (s.append e).bursts = s.bursts ++ [e].filterMap Event.burst? := List.filterMap_append

@[simp] theorem afterRefusal_bursts (r : Reason) (s : State) : (afterRefusal r s).bursts = s.bursts := by
  simp [afterRefusal, State.bursts, Event.burst?]

theorem bursts_sharedEvents (d : Byte) (p : Nat) :
    (sharedEvents d p).filterMap Event.burst? = [] := by
  unfold sharedEvents
  split_ifs <;> rfl

theorem bursts_frameEvents (y b1 b2 b3 : Byte) (p : Nat) :
    (frameEvents y b1 b2 b3 p).filterMap Event.burst? = [] := by
  rw [frameEvents, List.filterMap_append, List.filterMap_append, List.append_eq_nil_iff,
    List.append_eq_nil_iff]
  refine ⟨⟨?_, ?_⟩, ?_⟩
  · split <;> rfl
  · split <;> rfl
  · split
    · exact bursts_sharedEvents _ p
    · rfl

theorem receive_bursts (v : Byte) (s : State) : (receive v s).bursts = s.bursts := by
  rcases rxn_cases s with h | h
  · rw [receive_partial v h]; rfl
  · rw [receive_fourth v h]
    simp [State.bursts, bursts_frameEvents]

theorem receiveFrame_bursts (f : Frame) (s : State) : (receiveFrame f s).bursts = s.bursts := by
  simp only [receiveFrame, receive_bursts]

theorem setSlot_bursts (i : BitVec 3) (g : Frame → Frame) (s : State) :
    (setSlot i g s).bursts = s.bursts := by
  rcases setSlot_cases i g s with ⟨_, _, _, e⟩ | ⟨r, e⟩ <;> rw [e]
  · rfl
  · exact afterRefusal_bursts r s

theorem setFlag_bursts (radio : Radio) (kind : FlagKind) (s : State) :
    (setFlag radio kind s).bursts = s.bursts := by
  rcases setFlag_cases radio kind s with ⟨_, e⟩ | e <;> rw [e]
  · rfl
  · exact afterRefusal_bursts _ s

theorem ctrlByte_bursts (v : Byte) (s : State) : (ctrlByte v s).bursts = s.bursts := by
  rcases ctrlByte_cases v s with
    ⟨_, e⟩ | ⟨_, _, _, e⟩ | ⟨_, _, _, e⟩ | ⟨_, _, _, e⟩ | ⟨_, _, _, e⟩ <;> rw [e]
  · exact afterRefusal_bursts _ s
  all_goals rfl

theorem ifInit_bursts {f : State → State} {s : State} (h : (f s).bursts = s.bursts) :
    (ifInit f s).bursts = s.bursts := by
  rcases ifInit_cases f s with ⟨_, e⟩ | ⟨_, e⟩ <;> rw [e]
  · exact h
  · exact afterRefusal_bursts _ s

/-- No instruction but SEQ_SEND transmits. -/
theorem effect_bursts {i : Instr} (hi : i ≠ .seqSend) (s : State) : (effect i s).bursts = s.bursts := by
  cases i with
  | seqSend => exact absurd rfl hi
  | reset | seqInit => rfl
  | rxByte v => exact receive_bursts v s
  | rxFrame b0 b1 b2 b3 => exact receiveFrame_bursts ⟨b0, b1, b2, b3⟩ s
  | frameStart x => exact receiveFrame_bursts (canonicalFrame false x) s
  | frameCont x => exact receiveFrame_bursts (canonicalFrame true x) s
  | setFlag radio kind => exact setFlag_bursts radio kind s
  | setRadio _ k _ | setShared k _ _ => exact setSlot_bursts k _ s
  | foldRad1 | foldRad2 => exact setSlot_bursts 0 _ s
  | foldWk => exact setSlot_bursts 2 _ s
  | foldFsk1 => exact setSlot_bursts 3 _ s
  | foldFsk2 => exact setSlot_bursts 4 _ s
  | encodeRad1 => exact setSlot_bursts 0 _ (initSequence s)
  | ctrlByte v | foldCtrl v => exact ctrlByte_bursts v s
  | frameCount =>
    rw [effect_frameCount]
    exact ifInit_bursts (by simp [Event.burst?])
  | seqFinish =>
    rw [effect_seqFinish]
    refine ifInit_bursts ?_
    split
    · rfl
    · rw [setFlag_bursts, setFlag_bursts]

/-- SEQ_SEND transmits the burst of its state, or nothing. -/
theorem effect_seqSend_bursts (s : State) :
    (effect .seqSend s).bursts
      = s.bursts ++ if s.seqInit = true ∧ s.seqCount ≠ 0 then [burst s] else [] := by
  rw [effect_seqSend]
  rcases ifInit_cases (fun s => if s.seqCount = 0 then s else s.append (.tx (burst s))) s with
    ⟨hs, e⟩ | ⟨hs, e⟩ <;> rw [e]
  · by_cases hc : s.seqCount = 0 <;> simp [hs, hc, Event.burst?]
  · simp [hs]

/-- A burst among an instruction's new events is SEQ_SEND's, of a sequence that is not empty. -/
theorem new_burst {i : Instr} {s : State} {new : List Event} {bs : List Byte}
    (h : (effect i s).events = s.events ++ new) (hm : Event.tx bs ∈ new) :
    i = .seqSend ∧ s.seqInit = true ∧ s.seqCount ≠ 0 ∧ bs = burst s := by
  have hb : (effect i s).bursts = s.bursts ++ new.filterMap Event.burst? := by
    rw [State.bursts, h, List.filterMap_append]; rfl
  have hm := mem_bursts hm
  by_cases hi : i = .seqSend
  · rw [hi, effect_seqSend_bursts, List.append_cancel_left_eq] at hb
    rw [← hb] at hm
    split at hm
    · next hc => exact ⟨hi, hc.1, hc.2, List.mem_singleton.mp hm⟩
    · cases hm
  · rw [effect_bursts hi, List.self_eq_append_right] at hb
    rw [hb] at hm
    cases hm

/-- Settles O41: every burst is SEQ_SEND's, so it is the bytes of the sequence space below `4 * COUNT`. -/
theorem burstsAreWholeFrames : Obligations.BurstsAreWholeFrames := by
  intro i s t new bs h he hm
  obtain rfl := (exec_eq_next_iff i s t).mp h
  obtain ⟨-, -, hc, rfl⟩ := new_burst he hm
  obtain ⟨hlen, hread⟩ := burst_spec s
  have hpos : s.seqCount.val ≠ 0 := Fin.val_ne_of_ne hc
  constructor
  · simp only [hlen, List.mem_cons, List.not_mem_nil, or_false]
    omega
  · rw [List.head?_eq_getElem?]
    exact hread 0 (by omega)

end Sys2Proof.Machine
end

/-! ### The decoder reads the encoder's words back (R74, R85, R88, R89) -/

section
namespace Sys2Proof

theorem decodeCmd_rxByte (v : Byte) : decodeCmd (cmdWord 0x1 false 0 v) = some (.rxByte v) := by
  rw [decodeCmd_cmdWord]; rfl

theorem decodeCmd_seqInit : decodeCmd (cmdWord 0x2 false 0 0) = some .seqInit := by decide

theorem decodeCmd_setFlag (radio : Radio) (kind : FlagKind) :
    decodeCmd (cmdWord 0x3 (bitOfRadio radio) (fieldOfKind kind) 0) = some (.setFlag radio kind) := by
  rw [decodeCmd_cmdWord]
  simp

theorem decodeCmd_setRadio (a : Bool) (i : BitVec 3) (v : Byte) :
    decodeCmd (cmdWord 0x4 a i v) = some (.setRadio (radioOfBit a) i v) := by
  rw [decodeCmd_cmdWord]; rfl

theorem decodeCmd_setShared (m : Bool) (i : BitVec 3) (v : Byte) :
    decodeCmd (cmdWord 0x5 m i v) = some (.setShared i v m) := by
  rw [decodeCmd_cmdWord]; rfl

theorem decodeCmd_ctrlByte (v : Byte) : decodeCmd (cmdWord 0x7 false 0 v) = some (.ctrlByte v) := by
  rw [decodeCmd_cmdWord]; rfl

theorem decodeItem_cmd {w : CmdWord} {i : Instr} (h : decodeCmd w = some i) :
    decodeItem (.cmd w) = (some i, []) := by
  rw [decodeItem, h]

theorem decodeItem_pair {w0 w1 : CmdWord} {i : Instr} (h : decodePair w0 w1 = some i) :
    decodeItem (.pair w0 w1) = (some i, []) := by
  simp only [decodeItem, h]

theorem decodeItem_quad {w0 w1 w2 w3 : CmdWord} {i : Instr} (h : decodeQuad w0 w1 w2 w3 = some i) :
    decodeItem (.quad w0 w1 w2 w3) = (some i, []) := by
  simp only [decodeItem, h]

theorem decodePair_encodeRad1 (v : Byte) :
    decodePair (cmdWord 0x2 false 0 0) (cmdWord 0x4 false 0 v) = some (.encodeRad1 v) := by
  simp only [decodePair, decodeCmd_seqInit, decodeCmd_setRadio]; rfl

theorem decodeQuad_rxFrame (b0 b1 b2 b3 : Byte) :
    decodeQuad (cmdWord 0x1 false 0 b0) (cmdWord 0x1 false 0 b1) (cmdWord 0x1 false 0 b2)
      (cmdWord 0x1 false 0 b3) = some (.rxFrame b0 b1 b2 b3) := by
  simp only [decodeQuad, decodeCmd_rxByte]

theorem decodeFrame32_frameWord (c : Bool) (x : FrameFields) :
    decodeFrame32 (frameWord c x) = if c then .frameCont x else .frameStart x := by
  simp only [decodeFrame32, frameWord_canonical, frameWord_cont, frameFields_frameWord, if_true]

/-- Settles O3: a case per row, a command word by its fields, a group by its words, a frame by its bits. -/
theorem decodeEncodeAgree : Obligations.DecodeEncodeAgree := by
  intro i
  cases i with
  | reset | seqInit | frameCount | seqFinish | seqSend => exact decodeItem_cmd (by decide)
  | rxByte v => exact decodeItem_cmd (decodeCmd_rxByte v)
  | setFlag radio kind => exact decodeItem_cmd (decodeCmd_setFlag radio kind)
  | setRadio radio k v =>
    exact decodeItem_cmd ((decodeCmd_setRadio _ k v).trans (by rw [radioOfBit_bitOfRadio]; rfl))
  | setShared k v m => exact decodeItem_cmd (decodeCmd_setShared m k v)
  | ctrlByte v | foldCtrl v => exact decodeItem_cmd (decodeCmd_ctrlByte v)
  | foldRad1 v => exact decodeItem_cmd (decodeCmd_setRadio false 0 v)
  | foldRad2 v => exact decodeItem_cmd (decodeCmd_setRadio true 0 v)
  | foldWk v => exact decodeItem_cmd (decodeCmd_setShared true 2 v)
  | foldFsk1 v => exact decodeItem_cmd (decodeCmd_setShared true 3 v)
  | foldFsk2 v => exact decodeItem_cmd (decodeCmd_setShared true 4 v)
  | encodeRad1 v => exact decodeItem_pair (decodePair_encodeRad1 v)
  | rxFrame b0 b1 b2 b3 => exact decodeItem_quad (decodeQuad_rxFrame b0 b1 b2 b3)
  | frameStart x => exact congrArg (some · , []) (decodeFrame32_frameWord false x)
  | frameCont x => exact congrArg (some · , []) (decodeFrame32_frameWord true x)

end Sys2Proof
end

/-! ### The command decoder is the CMD16 table (R85, R86) -/

section
namespace Sys2Proof.Machine

open Sys2Proof

/-- Every row compares the whole operation code with its match and requires the other masked bits zero. -/
theorem and_mask_eq_pat_iff {r : CmdRow} (hr : r ∈ cmdTable) (w : CmdWord) :
    w &&& r.mask = r.pat ↔ opField w = opField r.pat ∧ (aField w && aField r.mask) = false
      ∧ iField w &&& iField r.mask = 0 ∧ vField w &&& vField r.mask = 0 := by
  have hrow : ∀ r ∈ cmdTable, opField r.mask = BitVec.allOnes 4 ∧ aField r.pat = false
      ∧ iField r.pat = 0 ∧ vField r.pat = 0 := by decide
  obtain ⟨hop, ha, hi, hv⟩ := hrow r hr
  rw [← cmdWord_fields w, ← cmdWord_fields r.mask, ← cmdWord_fields r.pat, cmdWord_and, cmdWord_inj]
  simp only [opField_cmdWord, aField_cmdWord, iField_cmdWord, vField_cmdWord, hop, ha, hi, hv,
    BitVec.and_allOnes]

theorem opField_of_match {r : CmdRow} (hr : r ∈ cmdTable) {w : CmdWord} (h : w &&& r.mask = r.pat) :
    opField w = opField r.pat :=
  ((and_mask_eq_pat_iff hr w).mp h).1

/-- The table's reading of the flag kind is the decoder's; those of the other operands are by definition. -/
theorem kindCode_eq_kindOfField (w : CmdWord) : kindCode w = kindOfField (iField w) := by
  have hk : ∀ i : BitVec 3, kindOfField i
      = if i[1] then (if i[0] then .cw else .fskext) else (if i[0] then .ptt else .rts) := by decide
  simp [hk, kindCode, iField]

/-! The must-be-zero tests of the decoder are the masked bits of the rows (R85, R86). -/

theorem and_seven (i : BitVec 3) : i &&& 7#3 = i := BitVec.and_allOnes

theorem and_ff (v : Byte) : v &&& 0xFF#8 = v := BitVec.and_allOnes

theorem zero_a_i_v_iff (a : Bool) (i : BitVec 3) (v : Byte) :
    (!a && i == 0 && v == 0) = true ↔ (a && true) = false ∧ i &&& 7 = 0 ∧ v &&& 0xFF = 0 := by
  simp [and_seven, and_ff, and_assoc]

theorem zero_a_i_iff (a : Bool) (i : BitVec 3) (v : Byte) :
    (!a && i == 0) = true ↔ (a && true) = false ∧ i &&& 7 = 0 ∧ v &&& 0 = 0 := by
  simp [and_seven]

theorem zero_i2_v_iff (a : Bool) (i : BitVec 3) (v : Byte) :
    (!i[2] && v == 0) = true ↔ (a && false) = false ∧ i &&& 4 = 0 ∧ v &&& 0xFF = 0 := by
  have hi : i &&& 4#3 = 0#3 ↔ i[2] = false := by revert i; decide
  simp [hi, and_ff]

theorem zero_nothing (a : Bool) (i : BitVec 3) (v : Byte) :
    (a && false) = false ∧ i &&& 0 = 0 ∧ v &&& 0 = 0 :=
  ⟨Bool.and_false a, BitVec.and_zero, BitVec.and_zero⟩

/-- A row decides every word of its operation code. -/
theorem decodeCmd_of_opField {r : CmdRow} (hr : r ∈ cmdTable) {w : CmdWord}
    (hop : opField w = opField r.pat) :
    decodeCmd w = if w &&& r.mask = r.pat then some (r.operation w) else none := by
  simp only [and_mask_eq_pat_iff hr w, hop, true_and]
  rw [decodeCmd, hop]
  simp only [cmdTable, List.mem_cons, List.not_mem_nil, or_false] at hr
  rcases hr with rfl | rfl | rfl | rfl | rfl | rfl | rfl | rfl | rfl | rfl
  · exact if_congr (zero_a_i_v_iff _ _ _) rfl rfl
  · exact if_congr (zero_a_i_iff _ _ _) rfl rfl
  · exact if_congr (zero_a_i_v_iff _ _ _) rfl rfl
  · simp only [kindCode_eq_kindOfField]
    exact if_congr (zero_i2_v_iff _ _ _) rfl rfl
  · exact (if_pos (zero_nothing _ _ _)).symm
  · exact (if_pos (zero_nothing _ _ _)).symm
  · exact if_congr (zero_a_i_v_iff _ _ _) rfl rfl
  · exact if_congr (zero_a_i_iff _ _ _) rfl rfl
  · exact if_congr (zero_a_i_v_iff _ _ _) rfl rfl
  · exact if_congr (zero_a_i_v_iff _ _ _) rfl rfl

/-- The operation codes from ten on have no row. -/
theorem decodeCmd_of_no_row {w : CmdWord} (h : ∀ r ∈ cmdTable, opField w ≠ opField r.pat) :
    decodeCmd w = none := by
  have hten : ∀ op : BitVec 4, (∀ r ∈ cmdTable, op ≠ opField r.pat) → 10 ≤ op.toNat := by decide
  have hop := hten _ h
  unfold decodeCmd
  split
  case h_11 => rfl
  all_goals omega

/-- The decoder of command words is the table, row by row (R85, R89). -/
theorem decodeCmd_of_match {r : CmdRow} (hr : r ∈ cmdTable) {w : CmdWord} (h : w &&& r.mask = r.pat) :
    decodeCmd w = some (r.operation w) := by
  rw [decodeCmd_of_opField hr (opField_of_match hr h), if_pos h]

theorem decodeCmd_of_no_match {w : CmdWord} (h : ∀ r ∈ cmdTable, w &&& r.mask ≠ r.pat) :
    decodeCmd w = none := by
  by_cases hop : ∃ r ∈ cmdTable, opField w = opField r.pat
  · obtain ⟨r, hr, hop⟩ := hop
    rw [decodeCmd_of_opField hr hop, if_neg (h r hr)]
  · exact decodeCmd_of_no_row fun r hr e => hop ⟨r, hr, e⟩

/-- Settles O2: every row compares the whole operation code, no two rows share one, and each row decides the
words of its own. -/
theorem commandWordsFollowTable : Obligations.CommandWordsFollowTable := by
  refine ⟨fun w r hr => decodeCmd_of_match hr, fun w => decodeCmd_of_no_match, ?_⟩
  have hne : cmdTable.Pairwise fun r q => opField r.pat ≠ opField q.pat := by decide
  refine hne.imp_of_mem fun hr hq hrq w hwr hwq => hrq ?_
  exact (opField_of_match hr hwr).symm.trans (opField_of_match hq hwq)

end Sys2Proof.Machine
end

/-! ### A frame on the physical channel (R70, R74, R89, R121) -/

section
namespace Sys2Proof.Machine

open Sys2Proof

/-- A byte whose mark is set is the mark and its bits 6:0 (R72). -/
theorem mark_or_low (b : Byte) (h : b[7] = true) : mark ||| (b.extractLsb' 0 7).setWidth 8 = b := by
  revert b; decide

/-- Bits 6:0 of a byte cut from a frame word are the seven bits from the same place. -/
theorem low_extractLsb' (n : Nat) (f : FrameWord) :
    (f.extractLsb' n 8).extractLsb' 0 7 = f.extractLsb' n 7 := by
  ext k hk
  have hk8 : k < 8 := by omega
  simp [hk8]

/-- The frame of the four bytes of a FRAME32 word, bits 31:24 first (R74). -/
def frameOfWord (f : FrameWord) : Frame :=
  ⟨f.extractLsb' 24 8, f.extractLsb' 16 8, f.extractLsb' 8 8, f.extractLsb' 0 8⟩

/-- A byte is its bits, so byte 0 of a canonical frame is the one with these valid bits and carries. -/
theorem syncOfFields_frameFields {f : FrameWord} (h : f[31] = false) :
    syncOfFields f[30] (frameFields f) = f.extractLsb' 24 8 := by
  obtain ⟨h7, h6, h5, h4, h3, h2, h1, h0⟩ := syncOfFields_bits f[30] (frameFields f)
  replace h7 := h7.trans h.symm
  ext k hk
  have hk : k = 0 ∨ k = 1 ∨ k = 2 ∨ k = 3 ∨ k = 4 ∨ k = 5 ∨ k = 6 ∨ k = 7 := by omega
  rcases hk with rfl | rfl | rfl | rfl | rfl | rfl | rfl | rfl <;>
    simp only [h7, h6, h5, h4, h3, h2, h1, h0, BitVec.getElem_extractLsb'] <;> rfl

theorem canonicalFrame_frameFields {f : FrameWord} (h : isCanonicalFrame f = true) :
    canonicalFrame f[30] (frameFields f) = frameOfWord f := by
  simp only [isCanonicalFrame, Bool.and_eq_true, Bool.not_eq_true'] at h
  obtain ⟨⟨⟨h31, h23⟩, h15⟩, h7⟩ := h
  have low (n : Nat) (hm : (f.extractLsb' n 8)[7] = true) :
      mark ||| (f.extractLsb' n 7).setWidth 8 = f.extractLsb' n 8 := by
    rw [← low_extractLsb', mark_or_low _ hm]
  rw [canonicalFrame, frameOfWord, Frame.mk.injEq]
  exact ⟨syncOfFields_frameFields h31, low 16 (by simpa using h23), low 8 (by simpa using h15),
    low 0 (by simpa using h7)⟩

theorem exec_decodeFrame32 (f : FrameWord) (s : State) :
    exec (decodeFrame32 f) s = .next (receiveFrame (frameOfWord f) s) := by
  unfold decodeFrame32
  split
  · next h =>
    rw [← canonicalFrame_frameFields h]
    cases f[30] <;> rfl
  · rfl

/-- Four RX_BYTE receive the frame of their bytes (R88). -/
theorem execAll_rxBytes (b0 b1 b2 b3 : Byte) (s : State) :
    execAll [.rxByte b0, .rxByte b1, .rxByte b2, .rxByte b3] s
      = .next (receiveFrame ⟨b0, b1, b2, b3⟩ s) := rfl

/-- Settles O4: a canonical frame is the frame of its fields, and any other is its bytes. -/
theorem framesAreTheirFourBytes : Obligations.FramesAreTheirFourBytes := by
  intro f
  refine ⟨decodeFrame32 f, rfl, fun s => ?_⟩
  rw [execAll_rxBytes, exec_decodeFrame32, frameOfWord]

end Sys2Proof.Machine
end

/-! ### Words that are refused (R86, R195, R197) -/

section
namespace Sys2Proof.Machine

open Sys2Proof

theorem step_cmd {s : State} {w : CmdWord} {rest : List Item} {i : Instr}
    (h : s.input = .cmd w :: rest) (hd : decodeCmd w = some i) :
    step s = .next (effect i { s with input := rest }) :=
  (step_decoded h (decodeItem_cmd hd)).trans (exec_eq_next i _)

theorem step_cmd_illegal {s : State} {w : CmdWord} {rest : List Item} (h : s.input = .cmd w :: rest)
    (hd : decodeCmd w = none) : step s = .next (afterRefusal .illegalCommand { s with input := rest }) :=
  step_illegal (left := []) h (by rw [decodeItem, hd])

/-- The frame index as the spec masks it is field `i`. -/
theorem toNat_and_seven (w : CmdWord) : ((w >>> 8) &&& 7).toNat = (iField w).toNat := by
  have hmask : (w.toNat >>> 8) &&& 7 = (w.toNat >>> 8) % 2 ^ 3 := Nat.and_two_pow_sub_one_eq_mod _ 3
  rw [BitVec.toNat_and, BitVec.toNat_ushiftRight, iField, BitVec.extractLsb'_toNat]
  exact hmask

/-- A word with operation code 4 or 5 is a setter on the frame of its field `i` (R85). -/
theorem effect_setter_word {w : CmdWord} (h : w &&& 0xF000 = 0x4000 ∨ w &&& 0xF000 = 0x5000) :
    ∃ i g, decodeCmd w = some i ∧ ∀ s, effect i s = setSlot (iField w) g s := by
  rcases h with h | h
  · exact ⟨_, _, decodeCmd_of_match (r := cmdTable[4]) (List.getElem_mem _) h, fun _ => rfl⟩
  · exact ⟨_, _, decodeCmd_of_match (r := cmdTable[5]) (List.getElem_mem _) h, fun _ => rfl⟩

/-- Settles O7: a word without a row decodes to nothing, and a setter word with an index above 4 is refused by
the setter itself. -/
theorem illegalWordsAreRefused : Obligations.IllegalWordsAreRefused := by
  constructor
  · intro s w rest h hw
    exact step_cmd_illegal h (decodeCmd_of_no_match hw)
  · intro s w rest h hs hop hi
    obtain ⟨i, g, hd, he⟩ := effect_setter_word hop
    rw [step_cmd h hd, he, setSlot_illegal]
    · exact hs
    · rwa [toNat_and_seven] at hi

end Sys2Proof.Machine
end

/-! ### Whole frames received (R88, R121, R122, R124) -/

section
namespace Sys2Proof.Machine

open Sys2Proof

/-- Settles O13: RX_FRAME is defined as its four bytes, and a whole frame into an empty assembler is one
decoder step of it. -/
theorem rxFrameRunsDecoder : Obligations.RxFrameRunsDecoder := by
  refine ⟨execAll_rxBytes, fun b0 b1 b2 b3 s h => ?_⟩
  have he : exec (.rxFrame b0 b1 b2 b3) s = .next _ :=
    congrArg Host.Outcome.next (receiveFrame_aligned ⟨b0, b1, b2, b3⟩ h)
  exact ⟨_, he, rfl, rfl, rfl, ⟨rfl, rfl⟩, ⟨rfl, rfl, rfl⟩, ⟨rfl, rfl, rfl⟩⟩

/-- Settles O14: bits 7 and 6 of the frame's byte 0 are clear. -/
theorem startFrameDispatchedAtZero : Obligations.StartFrameDispatchedAtZero := by
  intro x s h
  have he : exec (.frameStart x) s = .next _ := congrArg Host.Outcome.next (receiveFrame_canonical false x h)
  exact ⟨_, he, rfl, rfl, rfl, ⟨rfl, rfl⟩, ⟨rfl, rfl, rfl⟩, ⟨rfl, rfl, rfl⟩⟩

/-- Settles O15: bit 6 of the frame's byte 0 is set, so the decoder keeps its position. -/
theorem contFrameDispatchedAtPosition : Obligations.ContFrameDispatchedAtPosition := by
  intro x s h
  have he : exec (.frameCont x) s = .next _ := congrArg Host.Outcome.next (receiveFrame_canonical true x h)
  exact ⟨_, he, rfl, rfl, rfl, ⟨rfl, rfl⟩, ⟨rfl, rfl, rfl⟩, ⟨rfl, rfl, rfl⟩⟩

end Sys2Proof.Machine
end

/-! ### Pseudo-operations and words written out (R85, R88, R151 to R154) -/

section
namespace Sys2Proof.Machine

open Sys2Proof

/-- Settles O35: each fold has the meaning of its core operation. -/
theorem pseudoOperationsAreTheirExpansions : Obligations.PseudoOperationsAreTheirExpansions := by
  refine ⟨fun i s => ?_, fun v s => rfl, fun v => ⟨rfl, rfl, rfl, rfl, rfl, rfl⟩⟩
  cases i <;> rfl

/-- Settles O1, word by word. -/
theorem writtenWordsDecode : Obligations.WrittenWordsDecode := by
  unfold Obligations.WrittenWordsDecode
  decide

end Sys2Proof.Machine
end

/-! ### ENCODE_RAD1 (R88, R100, R102) -/

section
namespace Sys2Proof.Machine

open Sys2Proof

theorem effect_encodeRad1 (v : Byte) (s : State) :
    effect (.encodeRad1 v) s = updateFrame 0 (fun f => f.putRadio .radio1 v) (initSequence s) :=
  setSlot_legal (i := 0) (fun f => f.putRadio .radio1 v) (initSequence_seqInit s) (by decide)

/-- Frame 0 of a fresh sequence after SET_RADIO 1, 0, v (R83, R102). -/
theorem putRadio_initFrame (v : Byte) :
    (initFrame 0).putRadio .radio1 v
      = ⟨0x28 ||| (if v[7] then 0x04 else 0x00), 0x80 ||| (v &&& 0x7F), 0x80, 0x80⟩ := by
  simp only [initFrame, if_true, Frame.putRadio, radioSyncBits, maskIf, msb_eq_bit, ← BitVec.or_assoc]
  rfl

/-- The RAD1 datum of that frame is the byte written, and it has no other (R105, R108). -/
theorem decodeFrame_putRadio_initFrame (v : Byte) :
    (decodeFrame ((initFrame 0).putRadio .radio1 v) false).rad1 = some v
      ∧ (decodeFrame ((initFrame 0).putRadio .radio1 v) false).rad2 = none := by
  have hbits : ∀ v : Byte, ((initFrame 0).putRadio .radio1 v).sync[5] = true
      ∧ ((initFrame 0).putRadio .radio1 v).sync[4] = false
      ∧ ((initFrame 0).putRadio .radio1 v).sync[2] = v[7] := by decide
  obtain ⟨h5, h4, h2⟩ := hbits v
  have hd : datum v[7] ((initFrame 0).putRadio .radio1 v).rad1 = v :=
    (datum_eq_joinDatum _ _).trans (joinDatum_wireByte v)
  simp [decodeFrame, h5, h4, h2, hd]

/-- The fillers of frames 1 to 4 (R83, R100). -/
theorem memRead_initSequence_filler (s : State) {a : Nat} (h4 : 4 ≤ a) (h : a < 20) :
    memRead (initSequence s) a = some (if a % 4 = 0 then 0x40 else 0x80) := by
  obtain ⟨i, j, rfl⟩ := exists_seqAddr h
  have hi : i ≠ 0 := fun e => by rw [e, Fin.val_zero] at h4; omega
  have hj : (4 * i.val + j.val) % 4 = j.val := by omega
  rw [memRead_seqAddr, initSequence_frame, initFrame, if_neg hi, hj]
  match j with
  | 0 | 1 | 2 | 3 => rfl

/-- Settles O28: SEQ_INIT lays the fillers, and SET_RADIO 1, 0, v writes frame 0 alone. -/
theorem encodeRad1GivesFrameZero : Obligations.EncodeRad1GivesFrameZero := by
  intro v s
  obtain ⟨-, -, hother⟩ := putRadio1_spec 0 v (initSequence s)
  obtain ⟨hrad1, hrad2⟩ := decodeFrame_putRadio_initFrame v
  refine ⟨_, (exec_eq_next _ s).trans (congrArg _ (effect_encodeRad1 v s)), putRadio_initFrame v,
    hrad1, hrad2, fun a h4 h => ?_, rfl, rfl, rfl, ⟨rfl, rfl, rfl⟩, ⟨rfl, rfl⟩, ⟨rfl, rfl, rfl⟩⟩
  rw [hother a (show a ≠ 0 by omega) (show a ≠ 1 by omega)]
  exact memRead_initSequence_filler s h4 h

end Sys2Proof.Machine
end

/-! ### A whole command through the framer (R80, R141 to R143) -/

section
namespace Sys2Proof.Machine

open Sys2Proof

/-- `t` is InCommand with this terminator, and nothing was said or refused since `s`. -/
structure InCommand (term : Byte) (s t : State) : Prop where
  inCmd : t.cfInCmd = true
  term : t.cfTerm = term
  events : t.events = s.events
  refusalSeen : t.refusalSeen = s.refusalSeen

/-- One byte to a sequence, as the scheduler does (R170). -/
theorem execAll_ctrlCycle (b : Byte) (is : List Instr) (s : State) :
    execAll (.seqInit :: .ctrlByte b :: is) s = execAll is (ctrlByte b (initSequence s)) := by
  rw [execAll_cons, execAll_cons]; rfl

theorem ctrlCycle_opens {c : Byte} (hc : c ≠ 0) {s : State} (hs : s.cfInCmd = false) :
    InCommand (c ||| 0x80) s (ctrlByte c (initSequence s)) := by
  rcases ctrlByte_cases c (initSequence s) with
    ⟨h, _⟩ | ⟨_, _, h, _⟩ | ⟨_, _, _, e⟩ | ⟨_, h, _⟩ | ⟨_, h, _⟩
  · cases h
  · exact absurd h hc
  · rw [e]; exact ⟨rfl, rfl, rfl, rfl⟩
  · cases hs.symm.trans h
  · cases hs.symm.trans h

theorem ctrlCycle_inCommand (b : Byte) {s : State} (hs : s.cfInCmd = true) :
    (b = s.cfTerm ∧ ctrlByte b (initSequence s)
      = { updateFrame 1 (fun f => f.putShared b false) (initSequence s) with cfInCmd := false })
    ∨ (b ≠ s.cfTerm ∧ ctrlByte b (initSequence s)
      = updateFrame 1 (fun f => f.putShared b true) (initSequence s)) := by
  rcases ctrlByte_cases b (initSequence s) with
    ⟨h, _⟩ | ⟨_, h, _⟩ | ⟨_, h, _⟩ | ⟨_, _, h, e⟩ | ⟨_, _, h, e⟩
  · cases h
  · cases hs.symm.trans h
  · cases hs.symm.trans h
  · exact .inl ⟨h, e⟩
  · exact .inr ⟨h, e⟩

/-- A payload byte is not the terminator, so it leaves the framer as it is. -/
theorem InCommand.payload {term b : Byte} (hb : b ≠ term) {s t : State} (h : InCommand term s t) :
    InCommand term s (ctrlByte b (initSequence t)) := by
  obtain ⟨hin, rfl, hev, href⟩ := h
  rcases ctrlCycle_inCommand b hin with ⟨hbt, _⟩ | ⟨_, e⟩
  · exact absurd hbt hb
  · rw [e]; exact ⟨hin, rfl, hev, href⟩

theorem InCommand.payloads {term : Byte} {s : State} (payload : List Byte)
    (hp : ∀ b ∈ payload, b ≠ term) {t : State} (h : InCommand term s t) :
    ∃ u, execAll (payload.flatMap fun b => [.seqInit, .ctrlByte b]) t = .next u
      ∧ InCommand term s u := by
  induction payload generalizing t with
  | nil => exact ⟨t, rfl, h⟩
  | cons b payload ih =>
    obtain ⟨hb, hp⟩ := List.forall_mem_cons.mp hp
    obtain ⟨u, hu, hin⟩ := ih hp (h.payload hb)
    exact ⟨u, (execAll_ctrlCycle b _ t).trans hu, hin⟩

theorem InCommand.closes {term : Byte} {s t : State} (h : InCommand term s t) :
    (ctrlByte term (initSequence t)).cfInCmd = false
      ∧ (ctrlByte term (initSequence t)).events = s.events
      ∧ (ctrlByte term (initSequence t)).refusalSeen = s.refusalSeen := by
  obtain ⟨hin, rfl, hev, href⟩ := h
  rcases ctrlCycle_inCommand t.cfTerm hin with ⟨_, e⟩ | ⟨hne, _⟩
  · rw [e]; exact ⟨rfl, hev, href⟩
  · exact absurd rfl hne

/-- Settles O34, by induction on the payload. -/
theorem commandOpensAndCloses : Obligations.CommandOpensAndCloses := by
  intro c payload s hs hc hp
  obtain ⟨t, ht, hin⟩ := (ctrlCycle_opens hc hs).payloads payload hp
  obtain ⟨hidle, hev, href⟩ := hin.closes
  exact ⟨t, ctrlByte (c ||| 0x80) (initSequence t), (execAll_ctrlCycle c _ s).trans ht, hin.inCmd, hin.term,
    execAll_ctrlCycle _ [] t, hidle, hev, href⟩

end Sys2Proof.Machine
end

/-! ### What SEQ_SEND transmits under the invariant (R74, R75, R158) -/

section
namespace Sys2Proof.Machine

open Sys2Proof

/-- Every byte of a burst is a byte of a frame of the sequence. -/
theorem burst_getElem? {s : State} {a : Nat} {b : Byte} (h : (burst s)[a]? = some b) :
    ∃ (i : Fin 5) (j : Fin 4), a = 4 * i.val + j.val ∧ b = s.seqF[i].byte j := by
  obtain ⟨hlen, hread⟩ := burst_spec s
  have ha : a < 4 * s.seqCount.val := hlen ▸ (List.getElem?_eq_some_iff.mp h).1
  obtain ⟨i, j, rfl⟩ := exists_seqAddr (show a < 20 by omega)
  rw [hread _ ha, memRead_seqAddr] at h
  exact ⟨i, j, rfl, (Option.some.inj h).symm⟩

/-- Bit 7 tells a frame's first byte from its data bytes (R74). -/
theorem FrameInv.byte_bit_seven {i : Fin 5} {f : Frame} (h : FrameInv i f) (j : Fin 4) :
    (f.byte j)[7] = decide (j.val ≠ 0) := by
  match j with
  | 0 => exact h.reserved
  | 1 => exact h.rad1
  | 2 => exact h.rad2
  | 3 => exact h.shared

/-- Settles O42: a burst is the leading frames of its sequence, and each keeps the invariant of its frame. -/
theorem transmittedFramesAreCanonical : Obligations.TransmittedFramesAreCanonical := by
  intro i s t new bs hs h he hm
  obtain rfl := (exec_eq_next_iff i s t).mp h
  obtain ⟨-, hinit, hc, rfl⟩ := new_burst he hm
  have frame (k : Fin 5) : FrameInv k s.seqF[k] := ((seqInv_iff s).mp hs hinit k).1
  refine ⟨fun a b hb => ?_, fun f b hb => ?_, ?_⟩
  · obtain ⟨k, j, rfl, rfl⟩ := burst_getElem? hb
    rw [(frame k).byte_bit_seven j, show (4 * k.val + j.val) % 4 = j.val by omega]
  · obtain ⟨k, j, hf, rfl⟩ := burst_getElem? hb
    obtain rfl : j = 0 := Fin.ext (show j.val = 0 by omega)
    obtain rfl : f = k.val := by simp only [Fin.val_zero] at hf; omega
    exact (frame k).cont.trans (decide_eq_decide.mpr (Fin.ne_iff_vne k 0))
  · obtain ⟨-, hread⟩ := burst_spec s
    have hpos : s.seqCount.val ≠ 0 := Fin.val_ne_of_ne hc
    exact ⟨_, (hread 0 (by omega)).trans (memRead_seqAddr s 0 0), (frame 0).flags rfl⟩

end Sys2Proof.Machine
end

/-! ### What the setters write (R101 to R103) -/

section
namespace Sys2Proof.Machine

open Sys2Proof

/-- Besides the bytes of its frame an update raises COUNT, and touches nothing else (R104). -/
theorem updateFrame_rest (k : Fin 5) (g : Frame → Frame) {s : State} (hs : s.seqInit = true) :
    (updateFrame k g s).seqCount.val = max s.seqCount.val (k.val + 1)
      ∧ (updateFrame k g s).seqInit = true ∧ (updateFrame k g s).events = s.events
      ∧ SameReceive s (updateFrame k g s) ∧ SameFramer s (updateFrame k g s)
      ∧ SameRun s (updateFrame k g s) :=
  ⟨raisedCount_val s.seqCount k, hs, rfl, ⟨rfl, rfl, rfl⟩, ⟨rfl, rfl⟩, ⟨rfl, rfl, rfl⟩⟩

theorem exec_setFlag_ready (radio : Radio) (kind : FlagKind) {s : State} (hs : s.seqInit = true) :
    exec (.setFlag radio kind) s
      = .next (updateFrame 0 (fun f => f.orFlags (Config.flagMask kind radio)) s) :=
  congrArg Host.Outcome.next (setFlag_ready radio kind hs)

theorem exec_setRadio_legal (r : Radio) {i : BitVec 3} (hi : i.toNat ≤ 4) (v : Byte) {s : State}
    (hs : s.seqInit = true) :
    exec (.setRadio r i v) s = .next (updateFrame ⟨i.toNat, by omega⟩ (fun f => f.putRadio r v) s) :=
  congrArg Host.Outcome.next (setSlot_legal _ hs hi)

theorem exec_setShared_legal {i : BitVec 3} (hi : i.toNat ≤ 4) (v : Byte) (m : Bool) {s : State}
    (hs : s.seqInit = true) :
    exec (.setShared i v m) s
      = .next (updateFrame ⟨i.toNat, by omega⟩ (fun f => f.putShared v m) s) :=
  congrArg Host.Outcome.next (setSlot_legal _ hs hi)

/-- Settles O22: the write is `Frame.orFlags` on frame 0. -/
theorem setFlagOrsMaskIntoFlagsByte : Obligations.SetFlagOrsMaskIntoFlagsByte := by
  refine ⟨fun radio kind s hs => ?_, fun radio kind s hs => ?_, by decide⟩
  · obtain ⟨hflags, hsync, hother⟩ := orFlags_spec 0 (Config.flagMask kind radio) s
    exact ⟨_, exec_setFlag_ready radio kind hs, hflags, hsync, hother, updateFrame_rest 0 _ hs⟩
  · exact congrArg Host.Outcome.next (ifInit_uninit _ hs)

/-- Settles O23: the write is `Frame.putRadio` on frame `i`, and the setter's index test refuses. -/
theorem setRadioWritesSlot : Obligations.SetRadioWritesSlot := by
  refine ⟨fun radio i v s hs hi => ?_, fun radio i v s hs => ?_, fun radio i v s hs hi => ?_,
    fun a i v => ?_⟩
  · cases radio
    · obtain ⟨hdata, hsync, hother⟩ := putRadio1_spec ⟨i.toNat, by omega⟩ v s
      exact ⟨_, exec_setRadio_legal .radio1 hi v hs,
        hdata.trans (memRead_map_const s (by simp only; omega) _), hsync, hother, updateFrame_rest _ _ hs⟩
    · obtain ⟨hdata, hsync, hother⟩ := putRadio2_spec ⟨i.toNat, by omega⟩ v s
      exact ⟨_, exec_setRadio_legal .radio2 hi v hs,
        hdata.trans (memRead_map_const s (by simp only; omega) _), hsync, hother, updateFrame_rest _ _ hs⟩
  · exact congrArg Host.Outcome.next (setSlot_uninit i _ hs)
  · exact congrArg Host.Outcome.next (setSlot_illegal _ hs hi)
  · exact (congrArg decodeCmd (cmdWord_or 4 a i v)).trans (decodeCmd_setRadio a i v)

/-- Settles O24: the write is `Frame.putShared` on frame `i`, and the setter's index test refuses. -/
theorem setSharedWritesSlot : Obligations.SetSharedWritesSlot := by
  refine ⟨fun i v m s hs hi => ?_, fun i v m s hs => ?_, fun i v m s hs hi => ?_, fun m i v => ?_⟩
  · obtain ⟨hdata, hsync, hother⟩ := putShared_spec ⟨i.toNat, by omega⟩ v m s
    exact ⟨_, exec_setShared_legal hi v m hs,
      hdata.trans (memRead_map_const s (by simp only; omega) _), hsync, hother, updateFrame_rest _ _ hs⟩
  · exact congrArg Host.Outcome.next (setSlot_uninit i _ hs)
  · exact congrArg Host.Outcome.next (setSlot_illegal _ hs hi)
  · exact (congrArg decodeCmd (cmdWord_or 5 m i v)).trans (decodeCmd_setShared m i v)

end Sys2Proof.Machine
end

/-! ### Sync bits, marks and COUNT never fall (R37, R106) -/

section
namespace Sys2Proof.Machine

open Sys2Proof

/-- Every sync bit and every mark of `f` is set in `g` too. -/
structure FrameKept (f g : Frame) : Prop where
  sync : ∀ b, f.sync.getLsbD b = true → g.sync.getLsbD b = true
  rad1 : f.rad1[7] = true → g.rad1[7] = true
  rad2 : f.rad2[7] = true → g.rad2[7] = true
  shared : f.shared[7] = true → g.shared[7] = true

theorem FrameKept.refl (f : Frame) : FrameKept f f := ⟨fun _ => id, id, id, id⟩

theorem FrameKept.trans {f g h : Frame} (hfg : FrameKept f g) (hgh : FrameKept g h) : FrameKept f h :=
  ⟨fun b hb => hgh.sync b (hfg.sync b hb), fun hb => hgh.rad1 (hfg.rad1 hb),
    fun hb => hgh.rad2 (hfg.rad2 hb), fun hb => hgh.shared (hfg.shared hb)⟩

theorem getLsbD_or_left {y : Byte} (w : Byte) (b : Nat) (h : y.getLsbD b = true) :
    (y ||| w).getLsbD b = true := by
  rw [BitVec.getLsbD_or, h, Bool.true_or]

/-- Every write ORs into the sync byte, and writes data with their mark or ORs into them (R106). -/
theorem FrameWrite.kept {g : Frame → Frame} (hg : FrameWrite g) (f : Frame) : FrameKept f (g f) := by
  cases hg with
  | radio r v =>
    cases r
    · exact ⟨getLsbD_or_left _, fun _ => wireByte_mark v, id, id⟩
    · exact ⟨getLsbD_or_left _, id, fun _ => wireByte_mark v, id⟩
  | shared v m => exact ⟨getLsbD_or_left _, id, id, fun _ => wireByte_mark v⟩
  | flags mk => exact ⟨getLsbD_or_left _, id, id, getLsbD_or_left _ 7⟩

/-- COUNT has not fallen, and every frame has kept its sync bits and marks. -/
structure SequenceKept (s t : State) : Prop where
  count : s.seqCount.val ≤ t.seqCount.val
  frames : ∀ k : Fin 5, FrameKept s.seqF[k] t.seqF[k]

theorem SequenceKept.of_same {s t : State} (h : SameSequence s t) : SequenceKept s t := by
  obtain ⟨-, hf, hc⟩ := h
  exact ⟨by rw [hc], fun k => by rw [hf]; exact .refl _⟩

theorem SequenceKept.of_received {s t : State} (h : Received s t) : SequenceKept s t := by
  obtain ⟨-, hseq, -⟩ := h.same
  exact .of_same hseq

theorem SequenceKept.trans {s t u : State} (h : SequenceKept s t) (h' : SequenceKept t u) :
    SequenceKept s u :=
  ⟨h.count.trans h'.count, fun k => (h.frames k).trans (h'.frames k)⟩

theorem sequenceKept_refusal (r : Reason) (s : State) : SequenceKept s (afterRefusal r s) :=
  .of_same ⟨rfl, rfl, rfl⟩

theorem sequenceKept_updateFrame {g : Frame → Frame} (hg : FrameWrite g) (k : Fin 5) (s : State) :
    SequenceKept s (updateFrame k g s) where
  count := by rw [updateFrame_seqCount, raisedCount_val]; exact le_max_left _ _
  frames l := by
    rw [updateFrame_frame]
    split
    · next h => subst h; exact hg.kept _
    · exact .refl _

theorem sequenceKept_ifInit {f : State → State} {s : State} (h : SequenceKept s (f s)) :
    SequenceKept s (ifInit f s) := by
  rcases ifInit_cases f s with ⟨_, e⟩ | ⟨_, e⟩ <;> rw [e]
  · exact h
  · exact sequenceKept_refusal _ s

theorem sequenceKept_setSlot {g : Frame → Frame} (hg : FrameWrite g) (i : BitVec 3) (s : State) :
    SequenceKept s (setSlot i g s) := by
  rcases setSlot_cases i g s with ⟨k, _, _, e⟩ | ⟨r, e⟩ <;> rw [e]
  · exact sequenceKept_updateFrame hg k s
  · exact sequenceKept_refusal r s

theorem sequenceKept_setRadio (r : Radio) (i : BitVec 3) (v : Byte) (s : State) :
    SequenceKept s (setRadio r i v s) := sequenceKept_setSlot (.radio r v) i s

theorem sequenceKept_setShared (i : BitVec 3) (v : Byte) (m : Bool) (s : State) :
    SequenceKept s (setShared i v m s) := sequenceKept_setSlot (.shared v m) i s

theorem sequenceKept_setFlag (radio : Radio) (kind : FlagKind) (s : State) :
    SequenceKept s (setFlag radio kind s) :=
  sequenceKept_ifInit (sequenceKept_updateFrame (.flags _) 0 s)

theorem sequenceKept_ctrlByte (v : Byte) (s : State) : SequenceKept s (ctrlByte v s) := by
  have write (m : Bool) : SequenceKept s (updateFrame 1 (fun f => f.putShared v m) s) :=
    sequenceKept_updateFrame (.shared v m) 1 s
  rcases ctrlByte_cases v s with
    ⟨_, e⟩ | ⟨_, _, _, e⟩ | ⟨_, _, _, e⟩ | ⟨_, _, _, e⟩ | ⟨_, _, _, e⟩ <;> rw [e]
  · exact sequenceKept_refusal _ s
  · exact write false
  · exact (write false).trans (.of_same ⟨rfl, rfl, rfl⟩)
  · exact (write false).trans (.of_same ⟨rfl, rfl, rfl⟩)
  · exact write true

/-- Only what starts a sequence afresh takes anything back. -/
theorem sequenceKept_effect {i : Instr} (hi : startsSequence i = false) (s : State) :
    SequenceKept s (effect i s) := by
  cases i with
  | reset | seqInit | encodeRad1 => cases hi
  | rxByte | rxFrame | frameStart | frameCont => exact .of_received (received_effect rfl s)
  | setFlag radio kind => exact sequenceKept_setFlag radio kind s
  | setRadio r k v => exact sequenceKept_setRadio r k v s
  | setShared k v m => exact sequenceKept_setShared k v m s
  | foldRad1 v => exact sequenceKept_setRadio .radio1 0 v s
  | foldRad2 v => exact sequenceKept_setRadio .radio2 0 v s
  | foldWk v => exact sequenceKept_setShared 2 v true s
  | foldFsk1 v => exact sequenceKept_setShared 3 v true s
  | foldFsk2 v => exact sequenceKept_setShared 4 v true s
  | ctrlByte v | foldCtrl v => exact sequenceKept_ctrlByte v s
  | frameCount =>
    rw [effect_frameCount]
    exact sequenceKept_ifInit (.of_same ⟨rfl, rfl, rfl⟩)
  | seqFinish =>
    rw [effect_seqFinish]
    refine sequenceKept_ifInit ?_
    split
    · exact .of_same ⟨rfl, rfl, rfl⟩
    · exact (sequenceKept_setFlag .radio1 .rts s).trans (sequenceKept_setFlag .radio2 .rts _)
  | seqSend =>
    rw [effect_seqSend]
    refine sequenceKept_ifInit ?_
    split <;> exact .of_same ⟨rfl, rfl, rfl⟩

/-- Settles O26: the frame writes OR bits in and raise COUNT, and the other instructions write no frame. -/
theorem syncBitsAndCountNeverFall : Obligations.SyncBitsAndCountNeverFall := by
  intro i s t h hi
  obtain rfl := (exec_eq_next_iff i s t).mp h
  obtain ⟨hcount, hframes⟩ := sequenceKept_effect hi s
  refine ⟨hcount, fun k => ?_⟩
  obtain ⟨hsync, hrad1, hrad2, hshared⟩ := hframes k
  exact ⟨hsync, hrad1, hrad2, hshared⟩

end Sys2Proof.Machine
end

/-! ### A fresh sequence and the frames read back (R100, R105, R108) -/

section
namespace Sys2Proof.Machine

open Sys2Proof

/-- Settles O12: the machine's datum is the spec's, field by field. -/
theorem decodeFrameExtractsFields : Obligations.DecodeFrameExtractsFields := by
  intro f force
  simp only [decodeFrame, datum_eq_joinDatum, Bool.or_eq_true, and_self]

theorem initFrame_byte (i : Fin 5) (j : Fin 4) :
    (initFrame i).byte j = if j = 0 then (if i = 0 then 0x08 else 0x40) else 0x80 := by
  revert i j; decide

theorem memRead_initSequence (s : State) (i : Fin 5) (j : Fin 4) :
    memRead (initSequence s) (4 * i.val + j.val)
      = some (if j = 0 then (if i = 0 then 0x08 else 0x40) else 0x80) := by
  rw [memRead_seqAddr, initSequence_frame, initFrame_byte]

/-- Settles O21: the bytes are those of the five filler frames. -/
theorem seqInitFillsFrames : Obligations.SeqInitFillsFrames := by
  refine ⟨fun s => ⟨initSequence s, rfl, memRead_initSequence s 0 0, fun i h1 h4 => ?_,
    fun i j h4 h1 h3 => ?_, rfl, rfl, rfl, ⟨rfl, rfl, rfl⟩, ⟨rfl, rfl⟩, ⟨rfl, rfl, rfl⟩⟩,
    decodeCmd_seqInit⟩
  · have hi : (⟨i, by omega⟩ : Fin 5) ≠ 0 := Fin.ne_of_val_ne (Nat.ne_of_gt h1)
    exact (memRead_initSequence s ⟨i, by omega⟩ 0).trans (by rw [if_pos rfl, if_neg hi])
  · have hj : (⟨j, by omega⟩ : Fin 4) ≠ 0 := Fin.ne_of_val_ne (Nat.ne_of_gt h1)
    exact (memRead_initSequence s ⟨i, by omega⟩ ⟨j, by omega⟩).trans (by rw [if_neg hj])

/-- Settles O25, by what `ifInit` does. -/
theorem frameCountReturnsCount : Obligations.FrameCountReturnsCount := by
  refine ⟨fun s hs => ?_, fun s hs => congrArg Host.Outcome.next (ifInit_uninit _ hs), by decide⟩
  have he : exec .frameCount s = .next (s.append (.count s.seqCount)) :=
    congrArg Host.Outcome.next (ifInit_ready _ hs)
  exact ⟨_, he, rfl, fun a => rfl, ⟨rfl, rfl, rfl⟩, ⟨rfl, rfl⟩, ⟨rfl, rfl, rfl⟩, ⟨rfl, rfl, rfl⟩⟩

/-! A datum reads back from any frame whose carry bit for its slot was clear (R73, R105). -/

theorem decodeFrame_putRadio1 {f : Frame} (h : f.sync[2] = false) (v : Byte) (force : Bool) :
    (decodeFrame (f.putRadio .radio1 v) force).rad1 = some v := by
  have hbits : ∀ v : Byte, (radioSyncBits .radio1 v)[5] = true
      ∧ (radioSyncBits .radio1 v)[2] = v[7] := by decide
  obtain ⟨h5, h2⟩ := hbits v
  simp [decodeFrame, Frame.putRadio, h, h5, h2, datum_eq_joinDatum, joinDatum_wireByte]

theorem decodeFrame_putRadio2 {f : Frame} (h : f.sync[1] = false) (v : Byte) (force : Bool) :
    (decodeFrame (f.putRadio .radio2 v) force).rad2 = some v := by
  have hbits : ∀ v : Byte, (radioSyncBits .radio2 v)[4] = true
      ∧ (radioSyncBits .radio2 v)[1] = v[7] := by decide
  obtain ⟨h4, h1⟩ := hbits v
  simp [decodeFrame, Frame.putRadio, h, h4, h1, datum_eq_joinDatum, joinDatum_wireByte]

theorem decodeFrame_putShared {f : Frame} (h : f.sync[0] = false) (v : Byte) (force : Bool) :
    (decodeFrame (f.putShared v true) force).shared = some v := by
  have hbits : ∀ v : Byte, (sharedSyncBits v true)[3] = true
      ∧ (sharedSyncBits v true)[0] = v[7] := by decide
  obtain ⟨h3, h0⟩ := hbits v
  simp [decodeFrame, Frame.putShared, h, h3, h0, datum_eq_joinDatum, joinDatum_wireByte]

/-- The fillers carry nothing (R83). -/
theorem initFrame_carries (i : Fin 5) :
    (initFrame i).sync[2] = false ∧ (initFrame i).sync[1] = false ∧ (initFrame i).sync[0] = false := by
  revert i; decide

/-- After SEQ_INIT and one setter of frame `i`, that frame is the filler with the setter's write. -/
theorem setSlot_initSequence_frame {k : BitVec 3} {i : Fin 5} (hk : k.toNat = i.val)
    (g : Frame → Frame) (s : State) :
    (setSlot k g (initSequence s)).seqF[i] = g (initFrame i) := by
  have hk4 : k.toNat ≤ 4 := by omega
  obtain rfl : i = ⟨k.toNat, Nat.lt_succ_of_le hk4⟩ := Fin.ext hk.symm
  rw [setSlot_legal g (initSequence_seqInit s) hk4, updateFrame_frame, if_pos rfl,
    initSequence_frame]

/-- Settles O27: each slot's write, on the filler SEQ_INIT leaves there, reads back. -/
theorem slotRoundTrip : Obligations.SlotRoundTrip := by
  intro s i v k hk
  obtain ⟨h2, h1, h0⟩ := initFrame_carries i
  refine ⟨⟨setRadio .radio1 k v (initSequence s), rfl, ?_⟩,
    ⟨setRadio .radio2 k v (initSequence s), rfl, ?_⟩,
    ⟨setShared k v true (initSequence s), rfl, ?_⟩⟩
  · rw [setRadio, setSlot_initSequence_frame hk]
    exact decodeFrame_putRadio1 h2 v false
  · rw [setRadio, setSlot_initSequence_frame hk]
    exact decodeFrame_putRadio2 h1 v false
  · rw [setShared, setSlot_initSequence_frame hk]
    exact decodeFrame_putShared h0 v false

end Sys2Proof.Machine
end

/-! ### COUNT after any setters (R104) -/

section
namespace Sys2Proof.Machine

open Sys2Proof

theorem setSlot_updates {i : BitVec 3} (hi : i.toNat ≤ 4) (g : Frame → Frame) {s : State}
    (hs : s.seqInit = true) :
    ∃ (k : Fin 5) (g' : Frame → Frame), k.val = i.toNat ∧ setSlot i g s = updateFrame k g' s :=
  ⟨⟨i.toNat, by omega⟩, g, rfl, setSlot_legal g hs hi⟩

/-- A setter with legal operands updates the frame it targets. -/
theorem effect_setter {i : Instr} {n : Nat} {s : State} (hs : s.seqInit = true)
    (hw : i.wellFormed = true) (ht : setterTarget i = some n) :
    ∃ (k : Fin 5) (g : Frame → Frame), k.val = n ∧ effect i s = updateFrame k g s := by
  cases i with
  | setFlag radio kind => cases ht; exact ⟨0, _, rfl, setFlag_ready radio kind hs⟩
  | setRadio | setShared => cases ht; exact setSlot_updates (of_decide_eq_true hw) _ hs
  | foldRad1 | foldRad2 => cases ht; exact setSlot_updates (i := 0) (by decide) _ hs
  | foldWk => cases ht; exact setSlot_updates (i := 2) (by decide) _ hs
  | foldFsk1 => cases ht; exact setSlot_updates (i := 3) (by decide) _ hs
  | foldFsk2 => cases ht; exact setSlot_updates (i := 4) (by decide) _ hs
  | _ => cases ht

/-- One plus the highest frame index that setters target, 0 if there is none (R104). -/
def highestSlot (setters : List Instr) : Nat :=
  ((setters.filterMap setterTarget).map (· + 1)).foldr max 0

theorem highestSlot_cons {i : Instr} {n : Nat} (h : setterTarget i = some n) (is : List Instr) :
    highestSlot (i :: is) = max (n + 1) (highestSlot is) := by
  simp [highestSlot, h]

/-- From any initialised state the setters raise COUNT to the highest frame they target. -/
theorem execAll_setters_count (setters : List Instr) {s : State} (hs : s.seqInit = true)
    (h : ∀ i ∈ setters, i.wellFormed = true ∧ (setterTarget i).isSome = true) :
    ∃ t, execAll setters s = .next t ∧ t.seqCount.val = max s.seqCount.val (highestSlot setters) := by
  induction setters generalizing s with
  | nil => exact ⟨s, rfl, (Nat.max_zero _).symm⟩
  | cons i is ih =>
    obtain ⟨⟨hw, ht⟩, his⟩ := List.forall_mem_cons.mp h
    obtain ⟨n, hn⟩ := Option.isSome_iff_exists.mp ht
    obtain ⟨k, g, rfl, he⟩ := effect_setter hs hw hn
    obtain ⟨t, hrun, hcount⟩ := ih (s := updateFrame k g s) hs his
    refine ⟨t, by rw [execAll_cons, he, hrun], ?_⟩
    rw [hcount, updateFrame_seqCount, raisedCount_val, highestSlot_cons hn, Nat.max_assoc]

/-- Settles O29: SEQ_INIT leaves COUNT 0, then by induction on the setters. -/
theorem countIsOnePlusHighestSlot : Obligations.CountIsOnePlusHighestSlot := by
  intro setters s h
  obtain ⟨t, hrun, hcount⟩ := execAll_setters_count setters (initSequence_seqInit s) h
  exact ⟨t, (execAll_cons .seqInit setters s).trans hrun, hcount.trans (Nat.zero_max _)⟩

end Sys2Proof.Machine
end

/-! ### The decoder, byte by byte and cycle by cycle (R120 to R124, R128) -/

section
namespace Sys2Proof.Machine

open Sys2Proof

theorem exec_rxByte_partial (v : Byte) {s : State} (h : s.rxn.val < 3) :
    exec (.rxByte v) s = .next { s with rxb := s.rxb.set s.rxn v, rxn := s.rxn + 1 } :=
  congrArg Host.Outcome.next (receive_partial v h)

theorem exec_rxByte_fourth (v : Byte) {s : State} (h : s.rxn = 3) :
    exec (.rxByte v) s = .next { s with
      rxb := s.rxb.set 3 v
      rxn := 0
      pos := dispatchPosition s.rxb[0] s.pos + 1
      events := s.events
        ++ frameEvents s.rxb[0] s.rxb[1] s.rxb[2] v (dispatchPosition s.rxb[0] s.pos) } :=
  congrArg Host.Outcome.next (receive_fourth v h)

/-- A byte of RXB after byte `k` was written. -/
theorem rxb_set_getElem (b : Vector Byte 4) (k j : Fin 4) (v : Byte) :
    (b.set k v)[j] = if j = k then v else b[j] := by
  simp only [Fin.getElem_fin, Vector.getElem_set, Fin.ext_iff, eq_comm]

theorem decodeCmd_rxByte_word (v : Byte) : decodeCmd (0x1000#16 ||| v.setWidth 16) = some (.rxByte v) := by
  have hw : 0x1000#16 ||| v.setWidth 16 = cmdWord 0x1 false 0 v := by
    simpa using cmdWord_or 0x1 false 0 v
  rw [hw, decodeCmd_rxByte]

/-- Settles O11: the assembler stores a byte, and the fourth runs one decoder step of the frame in RXB. -/
theorem rxByteAssemblesAndDecodes : Obligations.RxByteAssemblesAndDecodes := by
  refine ⟨fun v s h => ?_, fun v s h => ?_, decodeCmd_rxByte_word⟩
  · have hn : (s.rxn + 1).val = s.rxn.val + 1 := by
      rw [← receive_partial_rxn v h, receive_partial v h]
    exact ⟨_, exec_rxByte_partial v h, hn, rfl, fun j => rxb_set_getElem s.rxb s.rxn j v, rfl,
      ⟨rfl, rfl⟩, ⟨rfl, rfl, rfl⟩, ⟨rfl, rfl, rfl⟩⟩
  · exact ⟨_, exec_rxByte_fourth v h, rfl, rfl, fun j => rxb_set_getElem s.rxb 3 j v, rfl,
      ⟨rfl, rfl⟩, ⟨rfl, rfl, rfl⟩, ⟨rfl, rfl, rfl⟩⟩

/-- At position 1 the shared byte is read whatever the valid bit, and only a zero one is dropped (R128). -/
theorem frameEvents_one (y b1 b2 b3 : Byte) :
    frameEvents y b1 b2 b3 1
      = (if y[5] then [.byte .rad1 (joinDatum y[2] b1)] else [])
        ++ (if y[4] then [.byte .rad2 (joinDatum y[1] b2)] else [])
        ++ (if joinDatum y[0] b3 = 0 then [] else [.byte .control (joinDatum y[0] b3)]) := by
  simp [frameEvents]

theorem dispatchPosition_kept {y : Byte} (h : ¬ (y[7] = false ∧ y[6] = false)) (p : Nat) :
    dispatchPosition y p = p := if_neg h

theorem dispatchPosition_resync {y : Byte} (h : y[7] = false ∧ y[6] = false) (p : Nat) :
    dispatchPosition y p = 0 := if_pos h

/-- Settles O16: a frame that does not resynchronise is dispatched at position 1, and `frameEvents_one` says
what that gives. -/
theorem controlSlotIgnoresValidBit : Obligations.ControlSlotIgnoresValidBit := by
  obtain ⟨-, aligned⟩ := rxFrameRunsDecoder
  intro y b1 b2 b3 s hn hp hy
  obtain ⟨t, he, -, -, hev, -⟩ := aligned y b1 b2 b3 s hn
  refine ⟨t, he, ?_⟩
  rw [hev, dispatchPosition_kept hy, hp, frameEvents_one]
  simp only [List.append_assoc]

/-- An instruction that completes a frame leaves the position one past where the frame was dispatched. -/
theorem effect_pos_of_completed {i : Instr} {s : State} {y : Byte} (h : completedSync i s = some y) :
    (effect i s).pos = dispatchPosition y s.pos + 1 := by
  cases i with
  | rxByte v =>
    obtain ⟨h3, hy⟩ := Option.ite_none_right_eq_some.mp h
    obtain rfl := Option.some.inj hy
    exact congrArg State.pos (receive_fourth v h3)
  | rxFrame b0 b1 b2 b3 =>
    obtain rfl := Option.some.inj h
    exact receiveFrame_pos ⟨b0, b1, b2, b3⟩ s
  | frameStart x =>
    obtain rfl := Option.some.inj h
    exact receiveFrame_pos (canonicalFrame false x) s
  | frameCont x =>
    obtain rfl := Option.some.inj h
    exact receiveFrame_pos (canonicalFrame true x) s
  | _ => cases h

/-- A byte that completes no frame leaves the position, and so does an instruction of the transmit side. -/
theorem effect_pos_of_not_completed {i : Instr} {s : State} (h : completedSync i s = none)
    (hi : i ≠ .reset) : (effect i s).pos = s.pos := by
  cases hr : isReceive i
  · obtain ⟨-, -, hp⟩ := (buildMoves_effect hr hi s).sameReceive
    exact hp
  · cases i with
    | rxByte v =>
      have h3 : s.rxn ≠ 3 := fun e => by simp [completedSync, e] at h
      have he : effect (.rxByte v) s = _ := receive_partial v ((rxn_cases s).resolve_right h3)
      rw [he]
    | rxFrame | frameStart | frameCont => cases h
    | _ => cases hr

/-- Settles O18: a completed frame moves the position on unless it resynchronises, and without one only RESET
moves it. -/
theorem positionFallsOnlyByResync : Obligations.PositionFallsOnlyByResync := by
  intro i s t ht
  obtain rfl := (exec_eq_next_iff i s t).mp ht
  refine ⟨fun hlt => ?_, fun y => effect_pos_of_completed, effect_pos_of_not_completed⟩
  by_cases hi : i = .reset
  · exact .inl hi
  rcases hc : completedSync i s with _ | y
  · exact absurd (effect_pos_of_not_completed hc hi) (by omega)
  have hpos := effect_pos_of_completed hc
  by_cases hy : y[7] = false ∧ y[6] = false
  · rw [dispatchPosition_resync hy] at hpos
    exact .inr ⟨y, rfl, hy.1, hy.2, hpos⟩
  · rw [dispatchPosition_kept hy] at hpos
    omega

/-- Below position 4 the decode schedule has an entry, so the shared byte is no anomaly (R123). -/
theorem anomaly_not_mem_sharedEvents (d : Byte) {p : Nat} (hp : p < 4) :
    Event.anomaly ∉ sharedEvents d p := by
  match p with
  | 0 | 2 | 3 => simp [sharedEvents]
  | 1 => by_cases hd : d = 0#8 <;> simp [sharedEvents, hd]
  | n + 4 => omega

theorem anomaly_not_mem_fieldEvents (x : FrameFields) {p : Nat} (hp : p < 4) :
    Event.anomaly ∉ fieldEvents x p := by
  refine List.not_mem_append (List.not_mem_append ?_ ?_) ?_
  · split <;> simp
  · split <;> simp
  · split
    · exact anomaly_not_mem_sharedEvents _ hp
    · exact List.not_mem_nil

/-- From `s` to `t` whole frames were received, and none of them was reported as an anomaly. -/
structure CleanFrames (s t : State) : Prop where
  aligned : t.rxn = 0
  no_anomaly : ∃ new, t.events = s.events ++ new ∧ Event.anomaly ∉ new

theorem CleanFrames.trans {s t u : State} (h : CleanFrames s t) (h' : CleanFrames t u) :
    CleanFrames s u := by
  obtain ⟨-, new, he, hn⟩ := h
  obtain ⟨hr, new', he', hn'⟩ := h'
  exact ⟨hr, new ++ new', by rw [he', he, List.append_assoc], List.not_mem_append hn hn'⟩

theorem cleanFrames_frameStart (x : FrameFields) {s : State} (h : s.rxn = 0) :
    CleanFrames s (effect (.frameStart x) s) ∧ (effect (.frameStart x) s).pos = 1 := by
  obtain ⟨t, he, hr, hp, hev, -⟩ := startFrameDispatchedAtZero x s h
  obtain rfl := (exec_eq_next_iff _ s t).mp he
  exact ⟨⟨hr, _, hev, anomaly_not_mem_fieldEvents x (by decide)⟩, hp⟩

theorem cleanFrames_frameCont (x : FrameFields) {s : State} (h : s.rxn = 0) (hs : s.pos < 4) :
    CleanFrames s (effect (.frameCont x) s) ∧ (effect (.frameCont x) s).pos = s.pos + 1 := by
  obtain ⟨t, he, hr, hp, hev, -⟩ := contFrameDispatchedAtPosition x s h
  obtain rfl := (exec_eq_next_iff _ s t).mp he
  exact ⟨⟨hr, _, hev, anomaly_not_mem_fieldEvents x hs⟩, hp⟩

/-- The four frames of one cycle of the device: the first with CONT = 0, the others with CONT = 1 (R124). -/
def cycleFrames (c : FrameFields × FrameFields × FrameFields × FrameFields) : List Instr :=
  [.frameStart c.1, .frameCont c.2.1, .frameCont c.2.2.1, .frameCont c.2.2.2]

/-- One cycle is dispatched at positions 0, 1, 2 and 3, wherever the decoder was. -/
theorem execAll_cycleFrames (c : FrameFields × FrameFields × FrameFields × FrameFields) {s : State}
    (h : s.rxn = 0) : ∃ t, execAll (cycleFrames c) s = .next t ∧ CleanFrames s t ∧ t.pos = 4 := by
  obtain ⟨clean0, p0⟩ := cleanFrames_frameStart c.1 h
  obtain ⟨clean1, p1⟩ := cleanFrames_frameCont c.2.1 clean0.aligned (by omega)
  obtain ⟨clean2, p2⟩ := cleanFrames_frameCont c.2.2.1 clean1.aligned (by omega)
  obtain ⟨clean3, p3⟩ := cleanFrames_frameCont c.2.2.2 clean2.aligned (by omega)
  refine ⟨_, ?_, clean0.trans (clean1.trans (clean2.trans clean3)), by omega⟩
  simp only [cycleFrames, execAll_cons, execAll_nil]

/-- Every cycle leaves the position at 4, so no cycles leave it there if it was. -/
theorem execAll_cycles (cycles : List (FrameFields × FrameFields × FrameFields × FrameFields))
    {s : State} (h : s.rxn = 0) :
    ∃ t, execAll (cycles.flatMap cycleFrames) s = .next t ∧ CleanFrames s t
      ∧ (cycles ≠ [] ∨ s.pos = 4 → t.pos = 4) := by
  induction cycles generalizing s with
  | nil =>
    exact ⟨s, rfl, ⟨h, [], (List.append_nil _).symm, List.not_mem_nil⟩, fun hp => hp.resolve_left (· rfl)⟩
  | cons c cs ih =>
    obtain ⟨t, hrun, clean, hp⟩ := execAll_cycleFrames c h
    obtain ⟨u, hrest, clean', hp'⟩ := ih clean.aligned
    refine ⟨u, ?_, clean.trans clean', fun _ => hp' (.inr hp)⟩
    rw [List.flatMap_cons, execAll_append _ _ s t hrun, hrest]

/-- Settles O19, by induction on the cycles. -/
theorem fourFrameCyclesNeverAnomalous : Obligations.FourFrameCyclesNeverAnomalous := by
  intro cycles s h
  obtain ⟨t, hrun, ⟨hr, new, hev, hn⟩, hp⟩ := execAll_cycles cycles h
  exact ⟨t, new, hrun, hev, hn, hr, fun hc => hp (.inl hc)⟩

end Sys2Proof.Machine
end

/-! ### The framer's graph and the byte it stores (R140 to R145, R152) -/

section
namespace Sys2Proof.Machine

open Sys2Proof

/-- A control byte that is a command's payload: InCommand, and not the terminator (R142). -/
def isPayload (v : Byte) (s : State) : Bool := s.cfInCmd && v != s.cfTerm

theorem isPayload_iff (v : Byte) (s : State) :
    isPayload v s = true ↔ s.cfInCmd = true ∧ v ≠ s.cfTerm := by
  rw [isPayload, Bool.and_eq_true, bne_iff_ne]

/-- CF.inCmd after a control byte: a command goes on until its terminator, and any byte but 0 opens one. -/
def inCmdAfter (v : Byte) (s : State) : Bool := if s.cfInCmd then v != s.cfTerm else v != 0

/-- CF.term after a control byte: set by the byte that opens a command, and by no other (D15). -/
def termAfter (v : Byte) (s : State) : Byte := if s.cfInCmd || v == 0 then s.cfTerm else v ||| 0x80

/-- What a control byte does within a sequence: SET_SHARED 1, v, m with m for a payload byte, then the framer's
move (R141, R142). -/
def afterControl (v : Byte) (s : State) : State :=
  { updateFrame 1 (fun f => f.putShared v (isPayload v s)) s with
    cfInCmd := inCmdAfter v s, cfTerm := termAfter v s }

/-- The four edges of the graph in one equation. -/
theorem ctrlByte_ready (v : Byte) {s : State} (hs : s.seqInit = true) :
    ctrlByte v s = afterControl v s := by
  rcases ctrlByte_cases v s with
    ⟨h, _⟩ | ⟨_, hc, hv, e⟩ | ⟨_, hc, hv, e⟩ | ⟨_, hc, hv, e⟩ | ⟨_, hc, hv, e⟩
  · cases hs.symm.trans h
  all_goals
    rw [e]
    simp [afterControl, updateFrame, isPayload, inCmdAfter, termAfter, bne, beq_eq_decide, hc, hv]

theorem ctrlByte_uninit (v : Byte) {s : State} (hs : s.seqInit = false) :
    ctrlByte v s = afterRefusal .seqUninit s := ifInit_uninit _ hs

theorem decodeCmd_ctrlByte_word (v : Byte) :
    decodeCmd (0x7000#16 ||| v.setWidth 16) = some (.ctrlByte v) := by
  have hw : 0x7000#16 ||| v.setWidth 16 = cmdWord 0x7 false 0 v := by
    simpa using cmdWord_or 0x7 false 0 v
  rw [hw, decodeCmd_ctrlByte]

/-- Settles O31: each edge by what a control byte does within a sequence. -/
theorem controlByteFollowsFramerGraph : Obligations.ControlByteFollowsFramerGraph := by
  refine ⟨fun v s hs => ?_, fun v s hs => ?_, decodeCmd_ctrlByte_word⟩
  · have edge : exec (.ctrlByte v) s = .next (afterControl v s) :=
      congrArg Host.Outcome.next (ctrlByte_ready v hs)
    refine ⟨_, _, edge, edge, exec_setShared_legal (i := 1) (by decide) v (isPayload v s) hs,
      ⟨rfl, rfl, rfl⟩, fun hc hv => ?_, fun hc (hv : v ≠ 0#8) => ?_, fun hc hv => ?_, fun hc hv => ?_,
      rfl, ⟨rfl, rfl, rfl⟩, ⟨rfl, rfl, rfl⟩⟩
    all_goals simp [afterControl, inCmdAfter, termAfter, hc, hv]
  · have refused : exec (.ctrlByte v) s = .next _ := congrArg Host.Outcome.next (ctrlByte_uninit v hs)
    exact ⟨refused, refused⟩

/-- Settles O32: the bytes of `Frame.putShared` on frame 1; the framer's move is outside the sequence space. -/
theorem controlByteWritesFrameOne : Obligations.ControlByteWritesFrameOne := by
  intro i v s hi hs
  have he : exec i s = .next (afterControl v s) := by
    rcases hi with rfl | rfl <;> exact congrArg Host.Outcome.next (ctrlByte_ready v hs)
  obtain ⟨hdata, hsync, hother⟩ := putShared_spec 1 v (isPayload v s) s
  obtain ⟨hcount, hinit, -⟩ := updateFrame_rest 1 (fun f => f.putShared v (isPayload v s)) hs
  simp only [isPayload_iff] at hsync
  exact ⟨_, he, hdata.trans (memRead_map_const s (by decide) _), hsync, hother, hcount, hinit⟩

end Sys2Proof.Machine
end

/-! ### What moves the framer (R144) -/

section
namespace Sys2Proof.Machine

open Sys2Proof

theorem SameFramer.trans {s t u : State} (h : SameFramer s t) (h' : SameFramer t u) :
    SameFramer s u := by
  obtain ⟨hc, ht⟩ := h
  obtain ⟨hc', ht'⟩ := h'
  exact ⟨hc'.trans hc, ht'.trans ht⟩

theorem Received.sameFramer {s t : State} (h : Received s t) : SameFramer s t := by
  obtain ⟨hf, -, -⟩ := h.same
  exact hf

theorem sameFramer_ifInit {f : State → State} {s : State} (h : SameFramer s (f s)) :
    SameFramer s (ifInit f s) := by
  rcases ifInit_cases f s with ⟨_, e⟩ | ⟨_, e⟩ <;> rw [e]
  · exact h
  · exact ⟨rfl, rfl⟩

theorem sameFramer_setSlot (i : BitVec 3) (g : Frame → Frame) (s : State) :
    SameFramer s (setSlot i g s) := by
  rcases setSlot_cases i g s with ⟨_, _, _, e⟩ | ⟨_, e⟩ <;> rw [e] <;> exact ⟨rfl, rfl⟩

theorem sameFramer_setFlag (radio : Radio) (kind : FlagKind) (s : State) :
    SameFramer s (setFlag radio kind s) := sameFramer_ifInit ⟨rfl, rfl⟩

/-- An instruction that is neither a control byte nor RESET keeps the framer. -/
theorem sameFramer_effect {i : Instr} (hc : isControlByte i = false) (hi : i ≠ .reset) (s : State) :
    SameFramer s (effect i s) := by
  cases i with
  | reset => exact absurd rfl hi
  | ctrlByte | foldCtrl => cases hc
  | rxByte | rxFrame | frameStart | frameCont =>
    exact (received_effect rfl s).sameFramer
  | seqInit => exact ⟨rfl, rfl⟩
  | setFlag radio kind => exact sameFramer_setFlag radio kind s
  | setRadio | setShared | foldRad1 | foldRad2 | foldWk | foldFsk1 | foldFsk2 =>
    exact sameFramer_setSlot _ _ s
  | encodeRad1 => exact sameFramer_setSlot _ _ (initSequence s)
  | frameCount => exact sameFramer_ifInit ⟨rfl, rfl⟩
  | seqFinish =>
    rw [effect_seqFinish]
    refine sameFramer_ifInit ?_
    split
    · exact ⟨rfl, rfl⟩
    · exact (sameFramer_setFlag .radio1 .rts s).trans (sameFramer_setFlag .radio2 .rts _)
  | seqSend =>
    rw [effect_seqSend]
    refine sameFramer_ifInit ?_
    split <;> exact ⟨rfl, rfl⟩

/-- Settles O33: a case per instruction; the writes of the sequence and of the receive side are not to CF. -/
theorem framerMovesOnlyOnControlBytes : Obligations.FramerMovesOnlyOnControlBytes := by
  intro i s t h hc hi
  obtain rfl := (exec_eq_next_iff i s t).mp h
  exact sameFramer_effect hc hi s

end Sys2Proof.Machine
end

/-! ### The folds of the radios and of the shared channels (R151, R153, R154) -/

section
namespace Sys2Proof.Machine

open Sys2Proof

/-- Settles O36: SET_RADIO on frame 0. -/
theorem radioFoldsWriteFrameZero : Obligations.RadioFoldsWriteFrameZero := by
  obtain ⟨legal, -⟩ := setRadioWritesSlot
  refine ⟨fun v s => ⟨rfl, rfl⟩, ?_⟩
  rintro i v j valid msb s (⟨rfl, rfl, rfl, rfl⟩ | ⟨rfl, rfl, rfl, rfl⟩) hs
  · exact legal .radio1 0 v s hs (by decide)
  · exact legal .radio2 0 v s hs (by decide)

/-- Settles O37: SET_SHARED with mark_valid on frames 2, 3 and 4. -/
theorem sharedFoldsWriteTheirFrame : Obligations.SharedFoldsWriteTheirFrame := by
  obtain ⟨legal, -⟩ := setSharedWritesSlot
  refine ⟨fun v s => ⟨rfl, rfl, rfl⟩, ?_⟩
  rintro i v k s (⟨rfl, rfl⟩ | ⟨rfl, rfl⟩ | ⟨rfl, rfl⟩) hs
  · exact legal 2 v true s hs (by decide)
  · exact legal 3 v true s hs (by decide)
  · exact legal 4 v true s hs (by decide)

end Sys2Proof.Machine
end

/-! ### The folds of two channels commute (R156) -/

section
namespace Sys2Proof.Machine

open Sys2Proof

/-- The channel of a radio's data. -/
def radioChannel : Radio → Channel
  | .radio1 => .rad1
  | .radio2 => .rad2

/-- What the fold of each channel does within a sequence (R151 to R154): a radio's writes its slot of frame 0,
Control's is a control byte, and the shared channels of frames 2 to 4 write their frame. -/
inductive FoldMove : Channel → (State → State) → Prop
  | radio (r : Radio) (v : Byte) : FoldMove (radioChannel r) (updateFrame 0 fun f => f.putRadio r v)
  | control (v : Byte) : FoldMove .control (afterControl v)
  | shared (k : Fin 5) (hk : 2 ≤ k) (v : Byte) :
      FoldMove (encodeChannel k) (updateFrame k fun f => f.putShared v true)

theorem effect_fold {i : Instr} {c : Channel} (h : foldChannel i = some c) :
    ∃ move, FoldMove c move ∧ ∀ s : State, s.seqInit = true → effect i s = move s := by
  cases i with
  | foldRad1 v =>
    cases h; exact ⟨_, .radio .radio1 v, fun s hs => setSlot_legal (i := 0) _ hs (by decide)⟩
  | foldRad2 v =>
    cases h; exact ⟨_, .radio .radio2 v, fun s hs => setSlot_legal (i := 0) _ hs (by decide)⟩
  | foldCtrl v => cases h; exact ⟨_, .control v, fun s hs => ctrlByte_ready v hs⟩
  | foldWk v =>
    cases h; exact ⟨_, .shared 2 (by decide) v, fun s hs => setSlot_legal (i := 2) _ hs (by decide)⟩
  | foldFsk1 v =>
    cases h; exact ⟨_, .shared 3 (by decide) v, fun s hs => setSlot_legal (i := 3) _ hs (by decide)⟩
  | foldFsk2 v =>
    cases h; exact ⟨_, .shared 4 (by decide) v, fun s hs => setSlot_legal (i := 4) _ hs (by decide)⟩
  | _ => cases h

theorem FoldMove.seqInit {c : Channel} {move : State → State} (h : FoldMove c move) (s : State) :
    (move s).seqInit = s.seqInit := by
  cases h <;> rfl

/-- The data go to different bytes, and the sync bits are ORed in (R106). -/
theorem putRadio_comm {r q : Radio} (h : r ≠ q) (v w : Byte) (f : Frame) :
    (f.putRadio q w).putRadio r v = (f.putRadio r v).putRadio q w := by
  cases r <;> cases q
  · exact absurd rfl h
  · simp only [Frame.putRadio]; congr 1; ac_rfl
  · simp only [Frame.putRadio]; congr 1; ac_rfl
  · exact absurd rfl h

/-- The framer is no part of a frame, so a control byte commutes with the update of any frame but its own. -/
theorem afterControl_updateFrame {k : Fin 5} (hk : k ≠ 1) (g : Frame → Frame) (v : Byte) (s : State) :
    afterControl v (updateFrame k g s) = updateFrame k g (afterControl v s) := by
  simp only [afterControl]
  rw [updateFrame_updateFrame_of_ne hk.symm]
  rfl

/-- Folds of different channels write different frames, but for the radios, which share frame 0. -/
theorem FoldMove.comm {c d : Channel} {move move' : State → State} (h : FoldMove c move)
    (h' : FoldMove d move') (hne : c ≠ d) (s : State) : move (move' s) = move' (move s) := by
  have zero_ne {k : Fin 5} (hk : 2 ≤ k) : 0 ≠ k := by omega
  cases h with
  | radio r v =>
    cases h' with
    | radio q w =>
      have hrq : r ≠ q := fun e => hne (congrArg _ e)
      rw [updateFrame_updateFrame, updateFrame_updateFrame]
      simp only [putRadio_comm hrq]
    | control w => exact (afterControl_updateFrame (by decide) _ w s).symm
    | shared l hl w => exact updateFrame_updateFrame_of_ne (zero_ne hl) _ _ s
  | control v =>
    cases h' with
    | radio q w => exact afterControl_updateFrame (by decide) _ v s
    | control w => exact absurd rfl hne
    | shared l hl w => exact afterControl_updateFrame (by omega) _ v s
  | shared k hk v =>
    cases h' with
    | radio q w => exact updateFrame_updateFrame_of_ne (zero_ne hk).symm _ _ s
    | control w => exact (afterControl_updateFrame (by omega) _ w s).symm
    | shared l hl w =>
      have hkl : k ≠ l := fun e => hne (congrArg _ e)
      exact updateFrame_updateFrame_of_ne hkl _ _ s

/-- Settles O38: each fold is its channel's move, in either state it runs from. -/
theorem foldsOfDifferentChannelsCommute : Obligations.FoldsOfDifferentChannelsCommute := by
  intro i j s hs hi hj hne
  obtain ⟨c, hc⟩ := Option.isSome_iff_exists.mp hi
  obtain ⟨d, hd⟩ := Option.isSome_iff_exists.mp hj
  obtain ⟨move, hm, he⟩ := effect_fold hc
  obtain ⟨move', hm', he'⟩ := effect_fold hd
  have hcd : c ≠ d := by simpa [hc, hd] using hne
  refine ⟨move' (move s), ?_, ?_⟩
  · rw [execAll_cons, execAll_cons, execAll_nil, he s hs, he' _ ((hm.seqInit s).trans hs)]
  · rw [execAll_cons, execAll_cons, execAll_nil, he' s hs, he _ ((hm'.seqInit s).trans hs),
      hm.comm hm' hcd]

end Sys2Proof.Machine
end

/-! ### SEQ_FINISH and SEQ_SEND (R155, R157) -/

section
namespace Sys2Proof.Machine

open Sys2Proof

/-- COUNT is at least 1 already where the sequence is not empty (R104). -/
theorem raisedCount_zero {c : Fin 6} (h : c ≠ 0) : raisedCount c 0 = c := by
  revert c; decide

theorem exec_seqFinish_empty {s : State} (hs : s.seqInit = true) (hc : s.seqCount = 0) :
    exec .seqFinish s = .next s :=
  (exec_eq_next _ s).trans (congrArg _ (effect_seqFinish_empty hs hc))

theorem exec_seqFinish_nonempty {s : State} (hs : s.seqInit = true) (hc : s.seqCount ≠ 0) :
    exec .seqFinish s = .next (updateFrame 0
      (fun f => f.orFlags (Config.flagMask .rts .radio1 ||| Config.flagMask .rts .radio2)) s) :=
  (exec_eq_next _ s).trans (congrArg _ (effect_seqFinish_nonempty hs hc))

/-- Settles O39: both masks are ORed into frame 0 at once, and COUNT is at least 1 already. -/
theorem seqFinishSetsRtsIfNonEmpty : Obligations.SeqFinishSetsRtsIfNonEmpty := by
  refine ⟨fun s hs => ?_, fun s hs => congrArg Host.Outcome.next (ifInit_uninit _ hs), by decide⟩
  by_cases hc : s.seqCount = 0
  · exact ⟨s, exec_seqFinish_empty hs hc, fun h => absurd hc h, fun _ => rfl, fun _ _ _ => rfl, rfl, hs, rfl,
      ⟨rfl, rfl, rfl⟩, ⟨rfl, rfl⟩, ⟨rfl, rfl, rfl⟩⟩
  · obtain ⟨hflags, hsync, hother⟩ :=
      orFlags_spec 0 (Config.flagMask .rts .radio1 ||| Config.flagMask .rts .radio2) s
    exact ⟨_, exec_seqFinish_nonempty hs hc, fun _ => ⟨hflags, hsync⟩, fun h => absurd h hc, hother,
      raisedCount_zero hc, (updateFrame_rest 0 _ hs).2⟩

/-- All SEQ_SEND does within a sequence: one event, or none (R157, D17). -/
theorem exec_seqSend_ready {s : State} (hs : s.seqInit = true) :
    exec .seqSend s
      = .next { s with events := s.events ++ if s.seqCount = 0 then [] else [.tx (burst s)] } := by
  rw [exec_eq_next, effect_seqSend, ifInit_ready _ hs]
  by_cases hc : s.seqCount = 0
  · rw [if_pos hc, if_pos hc, List.append_nil]
  · rw [if_neg hc, if_neg hc]; rfl

/-- Settles O40: an event is appended and nothing else, and `burst_spec` says what it carries. -/
theorem seqSendTransmitsLeadingFrames : Obligations.SeqSendTransmitsLeadingFrames := by
  refine ⟨fun s hs => ?_, fun s hs => congrArg Host.Outcome.next (ifInit_uninit _ hs), by decide⟩
  obtain ⟨hlen, hread⟩ := burst_spec s
  exact ⟨_, burst s, exec_seqSend_ready hs, rfl, hlen, hread, fun _ => rfl, ⟨rfl, rfl, rfl⟩, ⟨rfl, rfl⟩,
    ⟨rfl, rfl, rfl⟩, ⟨rfl, rfl, rfl⟩⟩

end Sys2Proof.Machine
end

/-! ### Receiving and building in either order (R171, R173) -/

section
namespace Sys2Proof.Machine

open Sys2Proof

/-- The state with another receive side and another event stream. -/
def State.withReceive (s : State) (rxb : Vector Byte 4) (rxn : Fin 4) (pos : Nat) (events : List Event) :
    State :=
  { s with rxb := rxb, rxn := rxn, pos := pos, events := events }

/-- From `s`, and from every state with its receive side, `f` leaves one receive side and appends the same
events: the rest of the state is neither read nor written. -/
def ReceivesAlone (f : State → State) (s : State) : Prop :=
  ∃ rxb rxn pos new, ∀ t, SameReceive s t → f t = t.withReceive rxb rxn pos (t.events ++ new)

theorem ReceivesAlone.comp {f g : State → State} {s : State} (hg : ReceivesAlone g (f s))
    (hf : ReceivesAlone f s) : ReceivesAlone (fun s => g (f s)) s := by
  obtain ⟨rxb, rxn, pos, new, ef⟩ := hf
  obtain ⟨rxb', rxn', pos', new', eg⟩ := hg
  refine ⟨rxb', rxn', pos', new ++ new', fun t ht => ?_⟩
  have same : SameReceive (f s) (f t) := by
    rw [ef s ⟨rfl, rfl, rfl⟩, ef t ht]
    exact ⟨rfl, rfl, rfl⟩
  show g (f t) = _
  rw [eg (f t) same, ef t ht, ← List.append_assoc]
  rfl

theorem receivesAlone_receive (v : Byte) (s : State) : ReceivesAlone (receive v) s := by
  rcases rxn_cases s with h | h
  · refine ⟨s.rxb.set s.rxn v, s.rxn + 1, s.pos, [], fun t ⟨hb, hn, hp⟩ => ?_⟩
    rw [receive_partial v (s := t) (by rwa [hn]), ← hb, ← hp, List.append_nil]
    simp only [hn]
    rfl
  · refine ⟨s.rxb.set 3 v, 0, dispatchPosition s.rxb[0] s.pos + 1,
      frameEvents s.rxb[0] s.rxb[1] s.rxb[2] v (dispatchPosition s.rxb[0] s.pos), fun t ⟨hb, hn, hp⟩ => ?_⟩
    rw [receive_fourth v (hn.trans h), hb, hp]
    rfl

theorem receivesAlone_receiveFrame (f : Frame) (s : State) : ReceivesAlone (receiveFrame f) s :=
  (receivesAlone_receive f.shared _).comp <| (receivesAlone_receive f.rad2 _).comp <|
    (receivesAlone_receive f.rad1 _).comp (receivesAlone_receive f.sync s)

theorem receivesAlone_effect {r : Instr} (hr : isReceive r = true) (s : State) :
    ReceivesAlone (effect r) s := by
  cases r with
  | rxByte v => exact receivesAlone_receive v s
  | rxFrame b0 b1 b2 b3 => exact receivesAlone_receiveFrame ⟨b0, b1, b2, b3⟩ s
  | frameStart x => exact receivesAlone_receiveFrame (canonicalFrame false x) s
  | frameCont x => exact receivesAlone_receiveFrame (canonicalFrame true x) s
  | _ => cases hr

/-- From `s` with any receive side and any event stream, `f` keeps that receive side, appends the same events
and does the same to the rest. -/
def BuildsAlone (f : State → State) (s : State) : Prop :=
  ∃ new, ∀ rxb rxn pos events,
    f (s.withReceive rxb rxn pos events) = (f s).withReceive rxb rxn pos (events ++ new)

theorem BuildsAlone.comp {f g : State → State} {s : State} (hg : BuildsAlone g (f s))
    (hf : BuildsAlone f s) : BuildsAlone (fun s => g (f s)) s := by
  obtain ⟨new, ef⟩ := hf
  obtain ⟨new', eg⟩ := hg
  refine ⟨new ++ new', fun rxb rxn pos events => ?_⟩
  show g (f (s.withReceive rxb rxn pos events)) = _
  rw [ef, eg, List.append_assoc]

/-- A branch taken on the sequence alone is taken from either state. -/
theorem BuildsAlone.congr {f g : State → State} {s : State} (hg : BuildsAlone g s)
    (h : ∀ t, SameSequence s t → f t = g t) : BuildsAlone f s := by
  obtain ⟨new, eg⟩ := hg
  refine ⟨new, fun rxb rxn pos events => ?_⟩
  rw [h s ⟨rfl, rfl, rfl⟩, h (s.withReceive rxb rxn pos events) ⟨rfl, rfl, rfl⟩, eg]

theorem BuildsAlone.of_no_event {f : State → State} {s : State}
    (h : ∀ rxb rxn pos events,
      f (s.withReceive rxb rxn pos events) = (f s).withReceive rxb rxn pos events) : BuildsAlone f s :=
  ⟨[], fun rxb rxn pos events => by rw [h, List.append_nil]⟩

theorem buildsAlone_refusal (r : Reason) (s : State) : BuildsAlone (afterRefusal r) s :=
  ⟨[.refused r], fun _ _ _ _ => rfl⟩

theorem buildsAlone_initSequence (s : State) : BuildsAlone initSequence s :=
  .of_no_event fun _ _ _ _ => rfl

theorem buildsAlone_updateFrame (k : Fin 5) (g : Frame → Frame) (s : State) :
    BuildsAlone (updateFrame k g) s := .of_no_event fun _ _ _ _ => rfl

theorem buildsAlone_ifInit {f : State → State} {s : State} (h : BuildsAlone f s) :
    BuildsAlone (ifInit f) s := by
  cases hs : s.seqInit
  · exact (buildsAlone_refusal .seqUninit s).congr fun t ⟨hi, _, _⟩ => ifInit_uninit f (hi.trans hs)
  · exact h.congr fun t ⟨hi, _, _⟩ => ifInit_ready f (hi.trans hs)

/-- SEQ_FINISH and SEQ_SEND do nothing while COUNT is 0. -/
theorem buildsAlone_unlessEmpty {f : State → State} {s : State} (h : BuildsAlone f s) :
    BuildsAlone (fun s => if s.seqCount = 0 then s else f s) s := by
  by_cases hc : s.seqCount = 0
  · exact (BuildsAlone.of_no_event (f := id) fun _ _ _ _ => rfl).congr
      fun t ⟨_, _, ht⟩ => if_pos (ht.trans hc)
  · exact h.congr fun t ⟨_, _, ht⟩ => if_neg (ht ▸ hc)

theorem buildsAlone_setSlot (i : BitVec 3) (g : Frame → Frame) (s : State) :
    BuildsAlone (setSlot i g) s := by
  refine buildsAlone_ifInit ?_
  cases frameIndex i with
  | none => exact buildsAlone_refusal .badFrameIndex s
  | some k => exact buildsAlone_updateFrame k g s

theorem buildsAlone_setFlag (radio : Radio) (kind : FlagKind) (s : State) :
    BuildsAlone (setFlag radio kind) s := buildsAlone_ifInit (buildsAlone_updateFrame 0 _ s)

theorem buildsAlone_ctrlByte (v : Byte) (s : State) : BuildsAlone (ctrlByte v) s := by
  cases hs : s.seqInit
  · exact (buildsAlone_refusal .seqUninit s).congr fun t ⟨hi, _, _⟩ => ctrlByte_uninit v (hi.trans hs)
  · exact (BuildsAlone.of_no_event (f := afterControl v) fun _ _ _ _ => rfl).congr
      fun t ⟨hi, _, _⟩ => ctrlByte_ready v (hi.trans hs)

/-- An instruction that neither receives nor resets reads and writes nothing of the receive side. -/
theorem buildsAlone_effect {q : Instr} (hq : isReceive q = false) (hne : q ≠ .reset) (s : State) :
    BuildsAlone (effect q) s := by
  cases q with
  | reset => exact absurd rfl hne
  | rxByte | rxFrame | frameStart | frameCont => cases hq
  | seqInit => exact buildsAlone_initSequence s
  | setFlag radio kind => exact buildsAlone_setFlag radio kind s
  | setRadio _ k _ | setShared k _ _ => exact buildsAlone_setSlot k _ s
  | foldRad1 | foldRad2 => exact buildsAlone_setSlot 0 _ s
  | foldWk => exact buildsAlone_setSlot 2 _ s
  | foldFsk1 => exact buildsAlone_setSlot 3 _ s
  | foldFsk2 => exact buildsAlone_setSlot 4 _ s
  | encodeRad1 v =>
    exact (buildsAlone_setSlot 0 (fun f => f.putRadio .radio1 v) _).comp (buildsAlone_initSequence s)
  | ctrlByte v | foldCtrl v => exact buildsAlone_ctrlByte v s
  | frameCount => exact buildsAlone_ifInit ⟨[.count s.seqCount], fun _ _ _ _ => rfl⟩
  | seqFinish =>
    exact buildsAlone_ifInit <| buildsAlone_unlessEmpty <|
      (buildsAlone_setFlag .radio2 .rts _).comp (buildsAlone_setFlag .radio1 .rts s)
  | seqSend =>
    exact buildsAlone_ifInit <| buildsAlone_unlessEmpty
      (f := fun s => s.append (.tx (burst s))) ⟨[.tx (burst s)], fun _ _ _ _ => rfl⟩

/-- Settles O48: the receive side comes from receiving alone and the rest from building alone, whichever is
first; each appends the same events in either order. -/
theorem receiveAndBuildIndependent : Obligations.ReceiveAndBuildIndependent := by
  intro r q s hr hq hne
  obtain ⟨rxb, rxn, pos, er, receives⟩ := receivesAlone_effect hr s
  obtain ⟨eq, builds⟩ := buildsAlone_effect hq hne s
  have hev : (effect q s).events = s.events ++ eq :=
    congrArg State.events (builds s.rxb s.rxn s.pos s.events)
  have hrq : effect q (effect r s)
      = (effect q s).withReceive rxb rxn pos (s.events ++ er ++ eq) := by
    rw [receives s ⟨rfl, rfl, rfl⟩, builds]
  have hqr : effect r (effect q s)
      = (effect q s).withReceive rxb rxn pos (s.events ++ eq ++ er) := by
    rw [receives _ (buildMoves_effect hq hne s).sameReceive, hev]
  refine ⟨effect q (effect r s), effect r (effect q s), er, eq, ?_, ?_, ?_⟩
  · rw [execAll_cons, execAll_cons, execAll_nil]
  · rw [execAll_cons, execAll_cons, execAll_nil]
  · rw [hrq, hqr]
    exact ⟨rfl, rfl, ⟨rfl, rfl, rfl⟩, ⟨rfl, rfl⟩, ⟨rfl, rfl, rfl⟩, ⟨rfl, rfl, rfl⟩⟩

end Sys2Proof.Machine
end

/-! ### Events an instruction may append (R34, R191, R193) -/

section
namespace Sys2Proof.Machine

open Sys2Proof

/-- The events of `t` are those of `s` and then some, each of which satisfies `P`. -/
def AppendsOnly (P : Event → Prop) (s t : State) : Prop :=
  ∃ new, t.events = s.events ++ new ∧ ∀ e ∈ new, P e

theorem AppendsOnly.of_eq {P : Event → Prop} {s t : State} (h : t.events = s.events) :
    AppendsOnly P s t :=
  ⟨[], by rw [h, List.append_nil], fun _ h => nomatch h⟩

theorem AppendsOnly.single {P : Event → Prop} {s t : State} {e : Event} (h : t.events = s.events ++ [e])
    (he : P e) : AppendsOnly P s t :=
  ⟨[e], h, List.forall_mem_singleton.mpr he⟩

theorem AppendsOnly.trans {P : Event → Prop} {s t u : State} (h : AppendsOnly P s t)
    (h' : AppendsOnly P t u) : AppendsOnly P s u := by
  obtain ⟨new, e, hn⟩ := h
  obtain ⟨new', e', hn'⟩ := h'
  exact ⟨new ++ new', by rw [e', e, List.append_assoc], List.forall_mem_append.mpr ⟨hn, hn'⟩⟩

end Sys2Proof.Machine
end

/-! ### When Anomaly is reported (R191, R123) -/

section
namespace Sys2Proof.Machine

open Sys2Proof

/-- The shared byte is an anomaly exactly where the decode schedule has no entry (R123). -/
theorem anomaly_count_sharedEvents (d : Byte) (p : Nat) :
    (sharedEvents d p).count .anomaly = if 4 ≤ p then 1 else 0 := by
  match p with
  | 0 | 2 | 3 => simp [sharedEvents]
  | 1 => by_cases hd : d = 0#8 <;> simp [sharedEvents, hd]
  | n + 4 => simp [sharedEvents]

theorem frameEvents_eq_append (y b1 b2 b3 : Byte) (p : Nat) :
    frameEvents y b1 b2 b3 p
      = (if y[5] then [.byte .rad1 (joinDatum y[2] b1)] else [])
        ++ (if y[4] then [.byte .rad2 (joinDatum y[1] b2)] else [])
        ++ (if y[3] || p = 1 then sharedEvents (joinDatum y[0] b3) p else []) := rfl

/-- Only the shared byte can be an anomaly; that position 1 forces it to be read makes none. -/
theorem anomaly_count_frameEvents (y b1 b2 b3 : Byte) (p : Nat) :
    (frameEvents y b1 b2 b3 p).count .anomaly = if y[3] = true ∧ 4 ≤ p then 1 else 0 := by
  have radio (valid : Bool) (ch : Channel) (v : Byte) :
      (if valid then [Event.byte ch v] else []).count .anomaly = 0 := by
    cases valid <;> rfl
  have shared : (if y[3] || p = 1 then sharedEvents (joinDatum y[0] b3) p else []).count .anomaly
      = if y[3] = true ∧ 4 ≤ p then 1 else 0 := by
    cases y[3]
    · by_cases hp : p = 1 <;> simp [hp, anomaly_count_sharedEvents]
    · simp [anomaly_count_sharedEvents]
  simp only [frameEvents_eq_append, List.count_append, radio, shared, Nat.zero_add]

theorem BuildMove.no_anomaly {s t : State} (h : BuildMove s t) : AppendsOnly (· ≠ .anomaly) s t := by
  cases h with
  | refusal | count | send => exact .single rfl (by simp)
  | start | write | framer => exact .of_eq rfl

theorem BuildMoves.no_anomaly {s t : State} (h : BuildMoves s t) : AppendsOnly (· ≠ .anomaly) s t := by
  induction h with
  | refl => exact .of_eq rfl
  | tail _ hm ih => exact ih.trans hm.no_anomaly

theorem effect_no_anomaly {i : Instr} (hr : isReceive i = false) (s : State) :
    AppendsOnly (· ≠ .anomaly) s (effect i s) := by
  by_cases hi : i = .reset
  · subst hi
    exact .of_eq (resetBlock_events s)
  · exact (buildMoves_effect hr hi s).no_anomaly

/-- Settles O17: a fourth byte appends its frame's events, whose anomalies are counted above; the elementary
moves of the transmit side append none. -/
theorem anomalyExactlyOnValidOverrun : Obligations.AnomalyExactlyOnValidOverrun := by
  refine ⟨fun v s h => ?_, fun i s hr => ?_⟩
  · exact ⟨_, _, exec_rxByte_fourth v h, rfl, anomaly_count_frameEvents _ _ _ _ _⟩
  · obtain ⟨new, hev, hn⟩ := effect_no_anomaly hr s
    exact ⟨_, new, exec_eq_next i s, hev, fun hm => hn _ hm rfl⟩

end Sys2Proof.Machine
end

/-! ### When an instruction is refused (R193 to R195) -/

section
namespace Sys2Proof.Machine

open Sys2Proof

/-- From `s` to `t` nothing was refused: the mark is what it was, and no Refused event was appended. -/
structure Unrefused (s t : State) : Prop where
  mark : t.refusalSeen = s.refusalSeen
  events : AppendsOnly (fun e => ∀ r, e ≠ .refused r) s t

theorem Unrefused.of_eq {s t : State} (hm : t.refusalSeen = s.refusalSeen) (he : t.events = s.events) :
    Unrefused s t := ⟨hm, .of_eq he⟩

theorem Unrefused.trans {s t u : State} (h : Unrefused s t) (h' : Unrefused t u) : Unrefused s u :=
  ⟨h'.mark.trans h.mark, h.events.trans h'.events⟩

theorem refused_not_mem_sharedEvents (r : Reason) (d : Byte) (p : Nat) :
    Event.refused r ∉ sharedEvents d p := by
  unfold sharedEvents
  split_ifs <;> simp

theorem refused_not_mem_frameEvents (r : Reason) (y b1 b2 b3 : Byte) (p : Nat) :
    Event.refused r ∉ frameEvents y b1 b2 b3 p := by
  rw [frameEvents_eq_append]
  refine List.not_mem_append (List.not_mem_append ?_ ?_) ?_
  · split <;> simp
  · split <;> simp
  · split
    · exact refused_not_mem_sharedEvents r _ p
    · exact List.not_mem_nil

theorem unrefused_receive (v : Byte) (s : State) : Unrefused s (receive v s) := by
  rcases rxn_cases s with h | h
  · rw [receive_partial v h]
    exact .of_eq rfl rfl
  · rw [receive_fourth v h]
    exact ⟨rfl, _, rfl, fun _ he r hr => refused_not_mem_frameEvents r _ _ _ _ _ (hr ▸ he)⟩

theorem unrefused_receiveFrame (f : Frame) (s : State) : Unrefused s (receiveFrame f s) :=
  (unrefused_receive f.sync s).trans <| (unrefused_receive f.rad1 _).trans <|
    (unrefused_receive f.rad2 _).trans (unrefused_receive f.shared _)

/-- The sequence operations of R194 and their folds, before SEQ_INIT. -/
theorem exec_uninit {i : Instr} {s : State} (hs : s.seqInit = false) (hn : needsSeq i = true) :
    exec i s = .next (afterRefusal .seqUninit s) := by
  cases i with
  | reset | rxByte | seqInit | rxFrame | encodeRad1 | frameStart | frameCont => cases hn
  | setFlag | frameCount | ctrlByte | seqFinish | seqSend | foldCtrl =>
    exact congrArg Host.Outcome.next (ifInit_uninit _ hs)
  | setRadio | setShared | foldRad1 | foldRad2 | foldWk | foldFsk1 | foldFsk2 =>
    exact congrArg Host.Outcome.next (setSlot_uninit _ _ hs)

/-- The two setters with an index operand, for an index that names no frame (R195). -/
theorem effect_illFormed {i : Instr} {s : State} (hs : s.seqInit = true) (hw : i.wellFormed = false) :
    effect i s = afterRefusal .badFrameIndex s := by
  cases i with
  | setRadio _ k | setShared k =>
    exact setSlot_illegal _ hs (Nat.lt_of_not_le (of_decide_eq_false hw))
  | _ => cases hw

/-- Within a sequence, an instruction with legal operands is not refused. -/
theorem unrefused_ready {i : Instr} {s : State} (hs : s.seqInit = true) (hw : i.wellFormed = true)
    (hn : needsSeq i = true) : Unrefused s (effect i s) := by
  have setter (n : Nat) (h : setterTarget i = some n) : Unrefused s (effect i s) := by
    obtain ⟨k, g, -, e⟩ := effect_setter hs hw h
    rw [e]
    exact .of_eq rfl rfl
  cases i with
  | reset | rxByte | seqInit | rxFrame | encodeRad1 | frameStart | frameCont => cases hn
  | setFlag | setRadio | setShared | foldRad1 | foldRad2 | foldWk | foldFsk1 | foldFsk2 =>
    exact setter _ rfl
  | ctrlByte v | foldCtrl v =>
    show Unrefused s (ctrlByte v s)
    rw [ctrlByte_ready v hs]
    exact .of_eq rfl rfl
  | frameCount =>
    rw [effect_frameCount, ifInit_ready _ hs]
    exact ⟨rfl, .single rfl (by simp)⟩
  | seqFinish =>
    by_cases hc : s.seqCount = 0
    · rw [effect_seqFinish_empty hs hc]
      exact .of_eq rfl rfl
    · rw [effect_seqFinish_nonempty hs hc]
      exact .of_eq rfl rfl
  | seqSend =>
    rw [effect_seqSend, ifInit_ready _ hs]
    split
    · exact .of_eq rfl rfl
    · exact ⟨rfl, .single rfl (by simp)⟩

/-- An instruction that needs no sequence is legal in every state. -/
theorem unrefused_of_not_needsSeq {i : Instr} (hn : needsSeq i = false) (s : State) :
    Unrefused s (effect i s) := by
  cases i with
  | reset | seqInit => exact .of_eq rfl rfl
  | rxByte v => exact unrefused_receive v s
  | rxFrame b0 b1 b2 b3 => exact unrefused_receiveFrame ⟨b0, b1, b2, b3⟩ s
  | frameStart x => exact unrefused_receiveFrame (canonicalFrame false x) s
  | frameCont x => exact unrefused_receiveFrame (canonicalFrame true x) s
  | encodeRad1 v =>
    rw [effect_encodeRad1]
    exact .of_eq rfl rfl
  | _ => cases hn

/-- Whether an instruction is refused, and why: SeqUninit before BadFrameIndex (R197), and for no other
reason. -/
theorem effect_refusal_cases (i : Instr) (s : State) :
    (s.seqInit = false ∧ needsSeq i = true ∧ effect i s = afterRefusal .seqUninit s)
      ∨ (s.seqInit = true ∧ i.wellFormed = false ∧ effect i s = afterRefusal .badFrameIndex s)
      ∨ Unrefused s (effect i s) := by
  cases hn : needsSeq i
  · exact .inr (.inr (unrefused_of_not_needsSeq hn s))
  cases hs : s.seqInit
  · exact .inl ⟨rfl, rfl, ((exec_eq_next_iff i s _).mp (exec_uninit hs hn)).symm⟩
  cases hw : i.wellFormed
  · exact .inr (.inl ⟨rfl, rfl, effect_illFormed hs hw⟩)
  · exact .inr (.inr (unrefused_ready hs hw hn))

/-- Settles O43: of the three cases, only the first appends this reason, and it is the one the second clause
excludes. -/
theorem seqUninitExactlyBeforeInit : Obligations.SeqUninitExactlyBeforeInit := by
  refine ⟨fun i s => exec_uninit, fun i s h => ?_⟩
  have within : AppendsOnly (· ≠ .refused .seqUninit) s (effect i s) := by
    rcases effect_refusal_cases i s with ⟨hs, hn, -⟩ | ⟨-, -, e⟩ | ⟨-, new, hev, hnew⟩
    · simp [hs, hn] at h
    · rw [e]
      exact .single rfl (by simp)
    · exact ⟨new, hev, fun x hx => hnew x hx _⟩
  obtain ⟨new, hev, hnew⟩ := within
  exact ⟨_, new, exec_eq_next i s, hev, fun hm => hnew _ hm rfl⟩

/-- Settles O44: both kinds of refusal set the mark and append their event, and without one neither happens. -/
theorem refusalMarkMatchesEvents : Obligations.RefusalMarkMatchesEvents := by
  intro i s
  refine ⟨effect i s, ?_⟩
  rcases effect_refusal_cases i s with ⟨hs, hn, e⟩ | ⟨-, hw, e⟩ | ⟨hmark, new, hev, hnew⟩
  · exact ⟨[.refused .seqUninit], exec_eq_next i s, by rw [e]; rfl, by simp [e, afterRefusal],
      fun _ => .inl ⟨hs, hn⟩⟩
  · exact ⟨[.refused .badFrameIndex], exec_eq_next i s, by rw [e]; rfl, by simp [e, afterRefusal],
      fun _ => .inr hw⟩
  · have no_refusal : ¬ ∃ r, Event.refused r ∈ new := fun ⟨r, hr⟩ => hnew _ hr r rfl
    exact ⟨new, exec_eq_next i s, hev, by rw [hmark, or_iff_left no_refusal],
      fun h => absurd h no_refusal⟩

end Sys2Proof.Machine
end

/-! ### The scheduler's operation streams (R170, R193) -/

section
namespace Sys2Proof.Machine

open Sys2Proof

theorem BuildMove.keeps_seqInit {s t : State} (h : BuildMove s t) (hs : s.seqInit = true) :
    t.seqInit = true := by
  cases h with
  | start => rfl
  | refusal | write | framer | count | send => exact hs

theorem BuildMoves.keeps_seqInit {s t : State} (h : BuildMoves s t) (hs : s.seqInit = true) :
    t.seqInit = true := by
  induction h with
  | refl => exact hs
  | tail _ hm ih => exact hm.keeps_seqInit ih

/-- The operations of a cycle after its SEQ_INIT: none of them resets or receives, and all have legal operands. -/
structure IsBuilding (i : Instr) : Prop where
  not_receive : isReceive i = false
  not_reset : i ≠ .reset
  legal : i.wellFormed = true

theorem unrefused_building {i : Instr} (hi : IsBuilding i) {s : State} (hs : s.seqInit = true) :
    Unrefused s (effect i s) ∧ (effect i s).seqInit = true := by
  obtain ⟨hr, hne, hw⟩ := hi
  refine ⟨?_, (buildMoves_effect hr hne s).keeps_seqInit hs⟩
  rcases effect_refusal_cases i s with ⟨h, -⟩ | ⟨-, h, -⟩ | h
  · cases hs.symm.trans h
  · cases hw.symm.trans h
  · exact h

theorem execAll_building (is : List Instr) (h : ∀ i ∈ is, IsBuilding i) {s : State}
    (hs : s.seqInit = true) : ∃ t, execAll is s = .next t ∧ Unrefused s t := by
  induction is generalizing s with
  | nil => exact ⟨s, rfl, .of_eq rfl rfl⟩
  | cons i is ih =>
    obtain ⟨hi, his⟩ := List.forall_mem_cons.mp h
    obtain ⟨first, hs'⟩ := unrefused_building hi hs
    obtain ⟨t, hrun, rest⟩ := ih his hs'
    exact ⟨t, by rw [execAll_cons, hrun], first.trans rest⟩

/-- What a cycle does once it has begun its sequence. -/
def cycleBuild (c : CycleInput) : List Instr := cycleFolds c ++ [.seqFinish, .seqSend]

theorem isBuilding_cycleBuild (c : CycleInput) : ∀ i ∈ cycleBuild c, IsBuilding i := by
  have optional (fold : Byte → Instr) (h : ∀ v, IsBuilding (fold v)) (o : Option Byte) :
      ∀ i ∈ (o.map fold).toList, IsBuilding i := by
    cases o <;> simp [h]
  simp only [cycleBuild, cycleFolds, List.forall_mem_append, List.forall_mem_cons, and_assoc]
  refine ⟨optional _ ?_ _, optional _ ?_ _, optional _ ?_ _, optional _ ?_ _, optional _ ?_ _,
    optional _ ?_ _, ⟨rfl, nofun, rfl⟩, ⟨rfl, nofun, rfl⟩, nofun⟩
  all_goals exact fun v => ⟨rfl, nofun, rfl⟩

theorem cycleOps_eq (c : CycleInput) :
    cycleOps c = (c.rx.map Instr.rxByte).toList ++ .seqInit :: cycleBuild c := by
  simp [cycleOps, cycleBuild]

/-- One cycle, from any state: SEQ_INIT comes before every operation that needs it. -/
theorem execAll_cycleOps (c : CycleInput) (s : State) :
    ∃ t, execAll (cycleOps c) s = .next t ∧ Unrefused s t := by
  have fromInit (s : State) : ∃ t, execAll (.seqInit :: cycleBuild c) s = .next t ∧ Unrefused s t := by
    obtain ⟨t, hrun, h⟩ := execAll_building (cycleBuild c) (isBuilding_cycleBuild c) (initSequence_seqInit s)
    exact ⟨t, hrun, (unrefused_of_not_needsSeq (i := .seqInit) rfl s).trans h⟩
  rw [cycleOps_eq]
  cases c.rx with
  | none => exact fromInit s
  | some v =>
    obtain ⟨t, hrun, h⟩ := fromInit (receive v s)
    exact ⟨t, hrun, (unrefused_receive v s).trans h⟩

theorem execAll_cycles_unrefused (cycles : List CycleInput) (s : State) :
    ∃ t, execAll (cycles.flatMap cycleOps) s = .next t ∧ Unrefused s t := by
  induction cycles generalizing s with
  | nil => exact ⟨s, rfl, .of_eq rfl rfl⟩
  | cons c cs ih =>
    obtain ⟨t, hrun, first⟩ := execAll_cycleOps c s
    obtain ⟨u, hrest, rest⟩ := ih t
    exact ⟨u, by rw [List.flatMap_cons, execAll_append _ _ s t hrun, hrest], first.trans rest⟩

/-- Settles O45, by induction on the cycles. -/
theorem schedulerStreamsNeverRefused : Obligations.SchedulerStreamsNeverRefused := by
  intro cycles s
  obtain ⟨t, hrun, hmark, new, hev, hnew⟩ := execAll_cycles_unrefused cycles s
  exact ⟨t, new, hrun, hev, hmark, fun r hr => hnew _ hr r rfl⟩

end Sys2Proof.Machine
end

/-! ### RESET and power-up (R220, R38) -/

section
namespace Sys2Proof.Machine

open Sys2Proof

theorem exec_reset (s : State) : exec .reset s = .next (resetBlock s) := rfl

theorem decodeCmd_reset : decodeCmd 0x0000 = some .reset := by decide

/-- Settles O10: RESET answers the reset block, in any state, and power-up is given with the same values. -/
theorem resetPutsBlockAtBridgeStart : Obligations.ResetPutsBlockAtBridgeStart :=
  ⟨fun s => ⟨resetBlock s, exec_reset s, resetBlock_rxn s, resetBlock_pos s, resetBlock_cfInCmd s,
    resetBlock_seqInit s, resetBlock_events s, resetBlock_refusalSeen s, resetBlock_input s⟩,
    decodeCmd_reset, rfl, rfl, rfl, rfl⟩

end Sys2Proof.Machine
end
